-- ==== Sys2Proof/Word.lean ====
section
/-! DEFINITION. Sys2Proof/Word.lean: the two unsigned word types of the spec (00_scope.md R7). -/

namespace Sys2Proof

/-- An unsigned value of 8 bits, bit 7 the most significant (R7 a, R10 a). -/
abbrev Byte := BitVec 8

/-- An unsigned value of 32 bits (R7 b). -/
abbrev Word := BitVec 32

end Sys2Proof
end

