-- ==== Sys2Proof/Syntax.lean ====
section
/-! DEFINITION. Sys2Proof/Syntax.lean: the 22 commands, the register names, the five host primitives and the
lines of a command script. -/

namespace Sys2Proof

/-- A command of CORE, one constructor per row of spec/opcode_table.json (30_encoding.md R48). -/
inductive Instr where
  | gfDbl
  | gfMul
  | gfPow
  | gfInv
  | sboxFwd
  | sboxInv
  | stLoad
  | stStore
  | subBytes
  | invSubBytes
  | shiftRows
  | invShiftRows
  | mixColumns
  | invMixColumns
  /-- `r` is `CW[11:8]`, an unsigned 4-bit number; 0 to 10 are legal (R46). -/
  | addRoundKey (r : BitVec 4)
  | keyExpand
  | blkEnc
  | blkDec
  | pkcs7Pad
  | pkcs7Unpad
  /-- `np` is `CW[12]`: false selects padded chaining, true unpadded (R47). -/
  | cbcEnc (np : Bool)
  /-- `np` as for `cbcEnc` (R47). -/
  | cbcDec (np : Bool)
  deriving DecidableEq, Repr

/-- A register the host can name (20_memory.md R39). -/
inductive RegName where
  | cmd
  | status
  | a
  | b
  | r
  | rklen
  | kptr
  | klen
  | iptr
  | ilen
  | sptr
  | slen
  | dptr
  | dlen
  /-- `STCOL[c]`, column `c` of `ST`. -/
  | stcol (c : Fin 4)
  /-- `RK[i]`. -/
  | rk (i : Fin 44)
  deriving DecidableEq, Repr

/-- The five host primitives (20_memory.md R38). A register access carries 32 bits and a MEM access one Byte;
an access of another width cannot be written down (U3; notes/assumptions/6.md). -/
inductive HostOp where
  | writeReg (off : Nat) (v : Word)
  | readReg (off : Nat)
  | writeMem (a : Nat) (b : Byte)
  | readMem (a : Nat)
  | reset
  deriving DecidableEq, Repr

/-- A line of a command script: a command (30_encoding.md R51) or a host pseudo-operation (R52). -/
inductive ScriptLine where
  | command (i : Instr)
  | wr (reg : RegName) (v : Word)
  | rd (reg : RegName)
  | wrmem (a : Nat) (s : List Byte)
  | rdmem (a n : Nat)
  | src (a n : Word)
  | dst (a : Word)
  | key (a : Word)
  | iv (a : Word)
  | reset
  deriving DecidableEq, Repr

end Sys2Proof
end

