-- ==== Sys2Proof/Decode.lean ====
section
/-! DEFINITION. Sys2Proof/Decode.lean: the decoder of command words, the encoder, the opcode table of R48, the
register map of R39 and the expansion of script lines. -/

namespace Sys2Proof

/-- `op = CW[7:0]` (30_encoding.md R45). -/
def opField (w : Word) : BitVec 8 := w.extractLsb' 0 8

/-- `r = CW[11:8]` (R45, R46). -/
def rField (w : Word) : BitVec 4 := w.extractLsb' 8 4

/-- `np = CW[12]` (R45, R47). -/
def npField (w : Word) : Bool := w.getLsbD 12

/-- `zero = CW[31:13]` (R45). -/
def zeroField (w : Word) : BitVec 19 := w.extractLsb' 13 19

/-- Why a word is no command (R49). Every reason is the one error `IllegalCommand`. -/
inductive IllegalWord where
  /-- Bits 31:13 are not zero. -/
  | zeroFieldSet
  /-- `op` is none of the 22 opcodes. -/
  | unassignedOp
  /-- `r` is not 0 in a command that has no `r` operand. -/
  | roundKeyNotOperand
  /-- `np` is 1 in a command that has no `np` operand. -/
  | noPaddingNotOperand
  /-- `op = 0x38` with `r` from 11 to 15. -/
  | roundKeyOutOfRange
  deriving DecidableEq, Repr

/-- The 19 opcodes without an operand (R48, the list in R53). -/
def plainCommand (op : BitVec 8) : Option Instr :=
  match op with
  | 0x10#8 => some .gfDbl
  | 0x11#8 => some .gfMul
  | 0x12#8 => some .gfPow
  | 0x13#8 => some .gfInv
  | 0x20#8 => some .sboxFwd
  | 0x21#8 => some .sboxInv
  | 0x30#8 => some .stLoad
  | 0x31#8 => some .stStore
  | 0x32#8 => some .subBytes
  | 0x33#8 => some .invSubBytes
  | 0x34#8 => some .shiftRows
  | 0x35#8 => some .invShiftRows
  | 0x36#8 => some .mixColumns
  | 0x37#8 => some .invMixColumns
  | 0x40#8 => some .keyExpand
  | 0x50#8 => some .blkEnc
  | 0x51#8 => some .blkDec
  | 0x60#8 => some .pkcs7Pad
  | 0x61#8 => some .pkcs7Unpad
  | _ => none

/-- The decoder the write to `CMD` performs, total on every word, tests in the order of R53. -/
def decode (w : Word) : Except IllegalWord Instr :=
  if zeroField w ≠ 0 then .error .zeroFieldSet
  else if opField w = 0x38 then
    if npField w then .error .noPaddingNotOperand
    else if 10 < (rField w).toNat then .error .roundKeyOutOfRange
    else .ok (.addRoundKey (rField w))
  else if opField w = 0x62 then
    if rField w ≠ 0 then .error .roundKeyNotOperand else .ok (.cbcEnc (npField w))
  else if opField w = 0x63 then
    if rField w ≠ 0 then .error .roundKeyNotOperand else .ok (.cbcDec (npField w))
  else
    match plainCommand (opField w) with
    | none => .error .unassignedOp
    | some i =>
      if rField w ≠ 0 then .error .roundKeyNotOperand
      else if npField w then .error .noPaddingNotOperand
      else .ok i

/-- What the decoder reads from a table row's word: CORE has one command format of 32 bits, and the word's number
is the value the host writes to `CMD` (R45; notes/assumptions/3.md). -/
def decodeTableWord (nbits w : Nat) : Option Instr :=
  (decode (BitVec.ofNat 32 (w % 2 ^ nbits))).toOption

/-- One row of the opcode table of R48: `w` is the command when `w &&& mask = value`. -/
structure OpcodeRow where
  mnemonic : String
  value : Word
  mask : Word
  deriving DecidableEq, Repr

/-- The row of R48 that a command stands in. -/
def opcodeRow : Instr → OpcodeRow
  | .gfDbl => ⟨"GF_DBL", 0x00000010, 0xFFFFFFFF⟩
  | .gfMul => ⟨"GF_MUL", 0x00000011, 0xFFFFFFFF⟩
  | .gfPow => ⟨"GF_POW", 0x00000012, 0xFFFFFFFF⟩
  | .gfInv => ⟨"GF_INV", 0x00000013, 0xFFFFFFFF⟩
  | .sboxFwd => ⟨"SBOX_FWD", 0x00000020, 0xFFFFFFFF⟩
  | .sboxInv => ⟨"SBOX_INV", 0x00000021, 0xFFFFFFFF⟩
  | .stLoad => ⟨"ST_LOAD", 0x00000030, 0xFFFFFFFF⟩
  | .stStore => ⟨"ST_STORE", 0x00000031, 0xFFFFFFFF⟩
  | .subBytes => ⟨"SUB_BYTES", 0x00000032, 0xFFFFFFFF⟩
  | .invSubBytes => ⟨"INV_SUB_BYTES", 0x00000033, 0xFFFFFFFF⟩
  | .shiftRows => ⟨"SHIFT_ROWS", 0x00000034, 0xFFFFFFFF⟩
  | .invShiftRows => ⟨"INV_SHIFT_ROWS", 0x00000035, 0xFFFFFFFF⟩
  | .mixColumns => ⟨"MIX_COLUMNS", 0x00000036, 0xFFFFFFFF⟩
  | .invMixColumns => ⟨"INV_MIX_COLUMNS", 0x00000037, 0xFFFFFFFF⟩
  | .addRoundKey _ => ⟨"ADD_ROUND_KEY", 0x00000038, 0xFFFFF0FF⟩
  | .keyExpand => ⟨"KEY_EXPAND", 0x00000040, 0xFFFFFFFF⟩
  | .blkEnc => ⟨"BLK_ENC", 0x00000050, 0xFFFFFFFF⟩
  | .blkDec => ⟨"BLK_DEC", 0x00000051, 0xFFFFFFFF⟩
  | .pkcs7Pad => ⟨"PKCS7_PAD", 0x00000060, 0xFFFFFFFF⟩
  | .pkcs7Unpad => ⟨"PKCS7_UNPAD", 0x00000061, 0xFFFFFFFF⟩
  | .cbcEnc _ => ⟨"CBC_ENC", 0x00000062, 0xFFFFEFFF⟩
  | .cbcDec _ => ⟨"CBC_DEC", 0x00000063, 0xFFFFEFFF⟩

/-- The bits of a command's operands, at the places of R45 (`r` at 11:8, `np` at 12). -/
def operandBits : Instr → Word
  | .addRoundKey r => r.setWidth 32 <<< 8
  | .cbcEnc np => (BitVec.ofBool np).setWidth 32 <<< 12
  | .cbcDec np => (BitVec.ofBool np).setWidth 32 <<< 12
  | .gfDbl | .gfMul | .gfPow | .gfInv | .sboxFwd | .sboxInv | .stLoad | .stStore | .subBytes | .invSubBytes
  | .shiftRows | .invShiftRows | .mixColumns | .invMixColumns | .keyExpand | .blkEnc | .blkDec | .pkcs7Pad
  | .pkcs7Unpad => 0

/-- The command word of a well-formed command (R45, R48). -/
def encode (i : Instr) : Word := (opcodeRow i).value ||| operandBits i

/-- A command's operand as R51 writes it after the mnemonic: `r` in decimal, `np` when it is set. -/
def Instr.operandText : Instr → String
  | .addRoundKey r => " " ++ toString r.toNat
  | .cbcEnc np => if np then " np" else ""
  | .cbcDec np => if np then " np" else ""
  | .gfDbl | .gfMul | .gfPow | .gfInv | .sboxFwd | .sboxInv | .stLoad | .stStore | .subBytes | .invSubBytes
  | .shiftRows | .invShiftRows | .mixColumns | .invMixColumns | .keyExpand | .blkEnc | .blkDec | .pkcs7Pad
  | .pkcs7Unpad => ""

/-- The command in the notation of R51: the mnemonic, then the operand after a space. -/
def Instr.asm (i : Instr) : String := (opcodeRow i).mnemonic ++ i.operandText

/-- Every well-formed command: the 22 commands with every value of their operands. -/
def allCommands : List Instr :=
  [.gfDbl, .gfMul, .gfPow, .gfInv, .sboxFwd, .sboxInv, .stLoad, .stStore, .subBytes, .invSubBytes, .shiftRows,
    .invShiftRows, .mixColumns, .invMixColumns]
  ++ (List.range 11).map (fun r => .addRoundKey (BitVec.ofNat 4 r))
  ++ [.keyExpand, .blkEnc, .blkDec, .pkcs7Pad, .pkcs7Unpad, .cbcEnc false, .cbcEnc true, .cbcDec false, .cbcDec true]

/-- The command a line of R51 stands for; none where no command is written so. -/
def parseCommand (line : String) : Option Instr :=
  allCommands.find? (fun i => i.asm == line)

/-- The byte offset of a register in REG space (20_memory.md R39). -/
def RegName.offset : RegName → Nat
  | .cmd => 0x000
  | .status => 0x004
  | .a => 0x008
  | .b => 0x00C
  | .r => 0x010
  | .rklen => 0x014
  | .kptr => 0x020
  | .klen => 0x024
  | .iptr => 0x028
  | .ilen => 0x02C
  | .sptr => 0x030
  | .slen => 0x034
  | .dptr => 0x038
  | .dlen => 0x03C
  | .stcol c => 0x040 + 4 * c.val
  | .rk i => 0x100 + 4 * i.val

/-- The register at an offset of REG space; none where R39 lists nothing. -/
def regAt (off : Nat) : Option RegName :=
  match off with
  | 0x000 => some .cmd
  | 0x004 => some .status
  | 0x008 => some .a
  | 0x00C => some .b
  | 0x010 => some .r
  | 0x014 => some .rklen
  | 0x020 => some .kptr
  | 0x024 => some .klen
  | 0x028 => some .iptr
  | 0x02C => some .ilen
  | 0x030 => some .sptr
  | 0x034 => some .slen
  | 0x038 => some .dptr
  | 0x03C => some .dlen
  | _ =>
    if off % 4 ≠ 0 then none
    else if h : 0x040 ≤ off ∧ off < 0x050 then some (.stcol ⟨(off - 0x040) / 4, by omega⟩)
    else if h : 0x100 ≤ off ∧ off < 0x1B0 then some (.rk ⟨(off - 0x100) / 4, by omega⟩)
    else none

/-- `HostWriteReg` to a register by its name (R52 `WR`). -/
def writeRegOp (reg : RegName) (v : Word) : HostOp := .writeReg reg.offset v

/-- The host primitives a script line stands for (R51, R52). -/
def ScriptLine.expand : ScriptLine → List HostOp
  | .command i => [.writeReg 0x000 (encode i)]
  | .wr reg v => [writeRegOp reg v]
  | .rd reg => [.readReg reg.offset]
  | .wrmem a s => s.mapIdx (fun k b => .writeMem (a + k) b)
  | .rdmem a n => (List.range n).map (fun k => .readMem (a + k))
  | .src a n => [writeRegOp .sptr a, writeRegOp .slen n]
  | .dst a => [writeRegOp .dptr a]
  | .key a => [writeRegOp .kptr a, writeRegOp .klen 16]
  | .iv a => [writeRegOp .iptr a, writeRegOp .ilen 16]
  | .reset => [.reset]

/-- The host primitives of a whole script, in order. -/
def expandScript (lines : List ScriptLine) : List HostOp := lines.flatMap ScriptLine.expand

end Sys2Proof
end

