-- ==== Sys2Proof/Config.lean ====
section
/-! DEFINITION. Sys2Proof/Config.lean: the parameters of one CORE and the values the spec leaves free. -/

namespace Sys2Proof

/-- The identity string of the block (00_scope.md R1, D1). No register holds it and no rule reads it. -/
def Config.identity : String := "CORE-AES128-CBC/donia172762-python-project/spec-v7"

/-- A free value: `MEMSIZE - 1`, any number from 0 to `2^32 - 2` (R6, D7, U14; notes/assumptions/1.md). -/
opaque Config.memSizePred : Fin 4294967295

/-- The open parameter `MEMSIZE`, `1 <= MEMSIZE <= 2^32 - 1` (R6, D7; notes/assumptions/1.md). -/
def Config.memSize : Nat := Config.memSizePred.val + 1

/-- A free value: the Byte that `MEM[a]` holds at power-on, before the host or a command has written it
(R23, U1; notes/assumptions/2.md). -/
opaque Config.powerOnByte : Nat → Byte

end Sys2Proof
end

