-- ==== Sys2Proof/Machine/State.lean ====
section
/-! DEFINITION. Sys2Proof/Machine/State.lean: the state of CORE as plain data (10_state.md R11 to R17), its value
after reset (R23), and the reasons a step can stop. -/

namespace Sys2Proof.Machine

/-- The State grid: `g[r][c]` is row `r`, column `c` (R10 b, R12). -/
abbrev Grid := Vector (Vector Byte 4) 4

/-- The key schedule store: 44 Words (R10 d, R13). -/
abbrev Schedule := Vector Word 44

/-- The written Bytes of `MEM`, addresses strictly rising (R17, R30). An address that is not listed has not been
written since power-on (U1; notes/assumptions/2.md). -/
abbrev Memory := List Host.Cell

/-- What a host primitive gives back (20_memory.md R38). -/
inductive HostValue where
  /-- `HostReadReg` returns 32 bits. -/
  | reg (v : Word)
  /-- `HostReadMem` returns one Byte. -/
  | byte (b : Byte)
  deriving DecidableEq, Repr

/-- The state of CORE. `CMD` holds no value and has no field (R15); there is no program counter (R18), no key, IV
or chain register (R19) and no table (R20). -/
structure State where
  /-- `A`, first operand of the field and S-box commands (R11). -/
  a : Byte
  /-- `B`, second operand of `GF_MUL`, exponent of `GF_POW` (R11). -/
  b : Byte
  /-- `R`, result of the field and S-box commands (R11). -/
  r : Byte
  /-- `ST`, the State grid of the transform commands (R12). -/
  st : Grid
  /-- `RK[0..43]` (R13). -/
  rk : Schedule
  /-- `RKLEN`, how many Words of `RK` are declared a schedule (R13). -/
  rklen : Word
  /-- `KPTR`, address of the key (R14). -/
  kptr : Word
  /-- `KLEN`, length of the key (R14). -/
  klen : Word
  /-- `IPTR`, address of the initialisation vector (R14). -/
  iptr : Word
  /-- `ILEN`, length of the initialisation vector (R14). -/
  ilen : Word
  /-- `SPTR`, address of the source sequence (R14). -/
  sptr : Word
  /-- `SLEN`, length of the source sequence (R14). -/
  slen : Word
  /-- `DPTR`, address of the destination (R14). -/
  dptr : Word
  /-- `DLEN`, number of Bytes the last successful storing command wrote (R14). -/
  dlen : Word
  /-- `STATUS`: `ERR` in 3:0, `FATAL` in 4, 31:5 read as 0 (R16). -/
  status : Word
  /-- `MEM` (R17). -/
  mem : Memory
  /-- `MEMSIZE`, the parameter: no primitive and no command changes it (R6, R21; notes/assumptions/1.md). -/
  memSize : Nat
  /-- What the host does next, first primitive first (R38, R41 a; notes/assumptions/3.md). -/
  pending : List HostOp
  /-- What the primitive just performed gave back, none where it gives nothing (R38; notes/assumptions/4.md). -/
  returned : Option HostValue
  deriving DecidableEq, Repr

/-- The initial state: every register at the value of R23, `MEM` never written, nothing asked by the host. -/
def State.reset : State where
  a := 0x00
  b := 0x00
  r := 0x00
  st := Vector.replicate 4 (Vector.replicate 4 0x00)
  rk := Vector.replicate 44 0x00000000
  rklen := 0
  kptr := 0
  klen := 0
  iptr := 0
  ilen := 0
  sptr := 0
  slen := 0
  dptr := 0
  dlen := 0
  status := 0
  mem := []
  memSize := Config.memSize
  pending := []
  returned := none

/-- Reasons for a fault: none. Every error of a command is reported in `STATUS` and the machine goes on
(60_exceptions.md R148, R149), and no behaviour has the treatment `stuck` (93_implementation_defined.md). -/
inductive Fault
  deriving DecidableEq, Repr

/-- Reasons for a refusal. -/
inductive Refusal where
  /-- Raised by `exec` for a command without a meaning. Safe: the model stops where the hardware goes on. -/
  | notModelled (mnemonic : String)
  /-- Raised by `step` for `HostReadMem` or `HostWriteMem` at an address of `MEMSIZE` or more, which the spec puts
  outside itself (R38, U2). Safe: no claim is made about such a host. -/
  | hostMemOutOfRange (a : Nat)
  /-- Raised by `step` for `HostReadReg` or `HostWriteReg` at an offset R39 does not list (R38, U2). Safe: no claim
  is made about such a host. -/
  | hostRegUnlisted (off : Nat)
  deriving DecidableEq, Repr

end Sys2Proof.Machine
end

