-- ==== Sys2Proof/Machine/Flags.lean ====
section
/-! DEFINITION. Sys2Proof/Machine/Flags.lean: the outcome codes of a command and the fields of `STATUS`, the only
flag state of CORE (10_state.md R16, 60_exceptions.md R140). -/

namespace Sys2Proof.Machine

/-- The six errors a command can end in (R140); `OK` is the absence of one. -/
inductive CommandError where
  /-- The word written to `CMD` is no command (R144). -/
  | illegalCommand
  /-- A key, IV, block, schedule or ciphertext has the wrong length (R141). -/
  | lengthError
  /-- Unpadding finds a malformed trailer (R142). -/
  | paddingError
  /-- A range a command must read or write leaves `MEM` (R145). -/
  | accessFault
  /-- An inverse S-box search finds no match (R143). -/
  | invariantFault
  /-- `STATUS.FATAL` was 1 when the word was written (R146). -/
  | locked
  deriving DecidableEq, Repr

/-- The code `OK` of `STATUS.ERR` (R140). -/
def okCode : BitVec 4 := 0

/-- The code of an error in `STATUS.ERR` (R16, R140). -/
def CommandError.code : CommandError → BitVec 4
  | .illegalCommand => 1
  | .lengthError => 2
  | .paddingError => 3
  | .accessFault => 4
  | .invariantFault => 5
  | .locked => 6

/-- `STATUS.ERR`, bits 3:0 (R16). -/
def errField (status : Word) : BitVec 4 := status.extractLsb' 0 4

/-- `STATUS.FATAL`, bit 4 (R16). -/
def fatalBit (status : Word) : Bool := status.getLsbD 4

/-- The `STATUS` word with the given fields, bits 31:5 zero (R16; notes/assumptions/8.md). -/
def statusWord (err : BitVec 4) (fatal : Bool) : Word := (BitVec.ofBool fatal ++ err).setWidth 32

/-- `STATUS.FATAL` of a state. -/
def State.fatal (s : State) : Bool := fatalBit s.status

/-- `STATUS.ERR` of a state. -/
def State.err (s : State) : BitVec 4 := errField s.status

/-- An error sets `FATAL` only when it is `InvariantFault`, and nothing but reset clears it (R16, R143). -/
def fatalAfter (e : CommandError) (fatal : Bool) : Bool := fatal || e == .invariantFault

end Sys2Proof.Machine
end

