-- ==== Sys2Proof/Machine/Ops.lean ====
section
/-! DEFINITION. Sys2Proof/Machine/Ops.lean: the named operations over MEM and registers, reporting an error, running
a command through the check order of 60_exceptions.md R147, and reset. -/

namespace Sys2Proof.Machine

/-! ### MEM (20_memory.md R31) -/

/-- The Byte written at an address, none where neither the host nor a command has written it since power-on. -/
def Memory.lookup : Memory → Nat → Option Byte
  | [], _ => none
  | (k, b) :: m, a => if k = a then some b else Memory.lookup m a

/-- Write one Byte; the addresses stay strictly rising. -/
def Memory.write : Memory → Nat → Byte → Memory
  | [], a, b => [(a, b)]
  | (k, c) :: m, a, b =>
    if a < k then (a, b) :: (k, c) :: m
    else if a = k then (a, b) :: m
    else (k, c) :: Memory.write m a b

/-- Write a byte sequence, lowest index at the lowest address. -/
def Memory.writeBytes : Memory → Nat → List Byte → Memory
  | m, _, [] => m
  | m, a, b :: bs => Memory.writeBytes (Memory.write m a b) (a + 1) bs

/-- Every address of the list is at least `lo` and the addresses rise strictly. -/
def Memory.wfFrom : Nat → Memory → Bool
  | _, [] => true
  | lo, (k, _) :: m => lo ≤ k && Memory.wfFrom (k + 1) m

/-- The canonical form: addresses strictly rising (notes/assumptions/2.md). -/
def Memory.wf (m : Memory) : Bool := Memory.wfFrom 0 m

/-- Every listed address exists in a MEM of `memSize` Bytes (R30). -/
def Memory.within (memSize : Nat) (m : Memory) : Bool := m.all (fun cell => cell.1 < memSize)

/-- What `MEM[a]` reads as: the Byte last written, else the free power-on Byte (R23, R31, U1). -/
def Memory.read (m : Memory) (a : Nat) : Byte := (m.lookup a).getD (Config.powerOnByte a)

/-- `MEM[a]` of a state. -/
def State.byteAt (s : State) (a : Nat) : Byte := Memory.read s.mem a

/-- `MemRead(addr, n)` (R31). -/
def State.memRead (s : State) (addr n : Nat) : List Byte := (List.range n).map (fun k => s.byteAt (addr + k))

/-- `MemWrite(addr, len(bytes), bytes)` (R31). -/
def State.memWrite (s : State) (addr : Nat) (bytes : List Byte) : State :=
  { s with mem := Memory.writeBytes s.mem addr bytes }

/-! ### Words and byte order (20_memory.md R32) -/

/-- `byte_i(w)`, byte 0 the most significant (R7 b, R32). -/
def byteOf (w : Word) (i : Fin 4) : Byte := w.extractLsb' (24 - 8 * i.val) 8

/-- `pack(b0, b1, b2, b3)`, big-endian (R32). -/
def pack (b0 b1 b2 b3 : Byte) : Word := b0 ++ b1 ++ b2 ++ b3

/-! ### The State grid (42_state_transforms.md) -/

/-- The grid whose row `r`, column `c` is `f r c`. -/
def Grid.ofFn (f : Fin 4 → Fin 4 → Byte) : Grid := Vector.ofFn (fun r => Vector.ofFn (fun c => f r c))

/-- Column `c` of a grid as a Word, row 0 most significant (R33, R39 `STCOL`). -/
def Grid.column (g : Grid) (c : Fin 4) : Word := pack g[0][c] g[1][c] g[2][c] g[3][c]

/-- A grid with column `c` replaced by the Bytes of a Word (R39 `STCOL`). -/
def Grid.setColumn (g : Grid) (c : Fin 4) (w : Word) : Grid :=
  Grid.ofFn (fun i j => if j = c then byteOf w i else g[i][j])

/-- Word `i` of a schedule. -/
def Schedule.word (w : Schedule) (i : Nat) : Word := w.getD i 0

/-! ### Errors (60_exceptions.md R148) -/

/-- Taking an error: only `STATUS` changes, `ERR` to the code and `FATAL` to 1 for `InvariantFault` (R143, R148). -/
def State.raise (s : State) (e : CommandError) : State :=
  { s with status := statusWord e.code (fatalAfter e s.fatal) }

/-- A command that did all its writes: `STATUS.ERR <- 0` (R147 step 7, R149). There is no return from an error. -/
def State.succeed (s : State) : State := { s with status := statusWord okCode s.fatal }

/-- The state a command leaves, given its body's verdict on the state before it (R22, R37, R147, R148): `Locked`
while `FATAL` is 1 (R146), else the body's writes, or its error with no write at all. -/
def State.afterCommand (s : State) (body : State → Except CommandError State) : State :=
  if s.fatal then s.raise .locked
  else
    match body s with
    | .ok t => t.succeed
    | .error e => s.raise e

/-- Run one command to its end. It always ends in a next state: every error is reported in `STATUS` (R148, R180). -/
def runCommand (body : State → Except CommandError State) (s : State) : Host.Outcome State Fault Refusal :=
  .next (s.afterCommand body)

/-- An illegal word written to `CMD`: `Locked` while `FATAL` is 1, else `IllegalCommand` (R144, R146, R147). -/
def runIllegal (s : State) : Host.Outcome State Fault Refusal :=
  runCommand (fun _ => .error .illegalCommand) s

/-! ### Reset (70_reset_and_hazards.md R170) -/

/-- `HostReset()`: every register at its reset value, `MEM` untouched; the parameter and what the host still has to do
are no state of CORE and stay (notes/assumptions/7.md). -/
def State.hostReset (s : State) : State :=
  { State.reset with mem := s.mem, memSize := s.memSize, pending := s.pending }

/-! ### The registers as the host sees them (20_memory.md R39) -/

/-- `HostReadReg` at a register: the value returned. -/
def State.readReg (s : State) : RegName → Word
  | .cmd => 0
  | .status => s.status
  | .a => s.a.setWidth 32
  | .b => s.b.setWidth 32
  | .r => s.r.setWidth 32
  | .rklen => s.rklen
  | .kptr => s.kptr
  | .klen => s.klen
  | .iptr => s.iptr
  | .ilen => s.ilen
  | .sptr => s.sptr
  | .slen => s.slen
  | .dptr => s.dptr
  | .dlen => s.dlen
  | .stcol c => Grid.column s.st c
  | .rk i => s.rk[i]

/-- `HostWriteReg` at a register other than `CMD`: the state after. Writes to `STATUS` and `R` are ignored; a write to
`CMD` stores nothing and runs a command, which is `hostWriteReg`'s. -/
def State.writeReg (s : State) (reg : RegName) (v : Word) : State :=
  match reg with
  | .cmd => s
  | .status => s
  | .a => { s with a := v.setWidth 8 }
  | .b => { s with b := v.setWidth 8 }
  | .r => s
  | .rklen => { s with rklen := v }
  | .kptr => { s with kptr := v }
  | .klen => { s with klen := v }
  | .iptr => { s with iptr := v }
  | .ilen => { s with ilen := v }
  | .sptr => { s with sptr := v }
  | .slen => { s with slen := v }
  | .dptr => { s with dptr := v }
  | .dlen => { s with dlen := v }
  | .stcol c => { s with st := Grid.setColumn s.st c v }
  | .rk i => { s with rk := s.rk.set i v }

end Sys2Proof.Machine
end

