-- ==== Sys2Proof/Machine/Operands.lean ====
section
/-! DEFINITION. Sys2Proof/Machine/Operands.lean: the operand forms of the commands, which are byte sequences in MEM
described by an address and a length register (10_state.md R14), with their range checks (20_memory.md R35). -/

namespace Sys2Proof.Machine

/-- The range check of `n` Bytes at the address in a register, in unbounded integers (R35). -/
def State.inMem (s : State) (ptr : Word) (n : Nat) : Bool := ptr.toNat + n ≤ s.memSize

/-- The 16 key Bytes at `KPTR`. -/
def State.keyBytes (s : State) : List Byte := s.memRead s.kptr.toNat 16

/-- The 16 Bytes of the initialisation vector at `IPTR`. -/
def State.ivBytes (s : State) : List Byte := s.memRead s.iptr.toNat 16

/-- The 16 Bytes of a source block at `SPTR`. -/
def State.sourceBlock (s : State) : List Byte := s.memRead s.sptr.toNat 16

/-- The `SLEN` Bytes of the source sequence at `SPTR`. -/
def State.sourceBytes (s : State) : List Byte := s.memRead s.sptr.toNat s.slen.toNat

/-- Write a result at `DPTR` and its length to `DLEN`, after the destination check (R35, R147 steps 6 and 7). -/
def State.storeResult (s : State) (out : List Byte) : Except CommandError State :=
  if s.inMem s.dptr out.length then
    .ok { s.memWrite s.dptr.toNat out with dlen := BitVec.ofNat 32 out.length }
  else .error .accessFault

/-- The length demand of unpadded chaining and of every ciphertext: a positive multiple of 16 (R141). -/
def positiveMultipleOf16 (n : Nat) : Bool := n ≠ 0 && n % 16 == 0

end Sys2Proof.Machine
end

