-- ==== Sys2Proof/Machine/GfArithmetic.lean ====
section
/-! DEFINITION. Sys2Proof/Machine/GfArithmetic.lean: GF(2^8) arithmetic and its four commands
(40_gf_arithmetic.md). -/

namespace Sys2Proof.Machine

/-- The reduction constant: `x^8 = x^4 + x^3 + x + 1` (R60). -/
def reductionConstant : Byte := 0x1B

/-- `double(a)`: multiply by `x`, reduced (R60). -/
def double (a : Byte) : Byte :=
  bif a.getLsbD 7 then (a <<< 1) ^^^ reductionConstant else a <<< 1

/-- The loop of `multiply`: `n` steps from bit 0 of `b` upward (R61). -/
def multiplyLoop : Nat → Byte → Byte → Byte → Byte
  | 0, acc, _, _ => acc
  | n + 1, acc, a, b =>
    multiplyLoop n (bif b.getLsbD 0 then acc ^^^ a else acc) (double a) (b >>> 1)

/-- `multiply(a, b)`: doubling and conditional accumulation over the 8 bits of `b` (R61). -/
def multiply (a b : Byte) : Byte := multiplyLoop 8 0x00 a b

/-- The loop of `power`; the first argument bounds the steps (R62). -/
def powerLoop : Nat → Byte → Byte → Nat → Byte
  | 0, result, _, _ => result
  | n + 1, result, base, e =>
    if e = 0 then result
    else powerLoop n (if e % 2 = 1 then multiply result base else result) (multiply base base) (e / 2)

/-- `power(a, e)` by repeated squaring; `e` steps suffice since each halves `e` (R62). -/
def power (a : Byte) (e : Nat) : Byte := powerLoop e 0x01 a e

/-- `inverse(a) = power(a, 254)` (R63). -/
def inverse (a : Byte) : Byte := power a 254

/-! ### The commands -/

/-- `GF_DBL` (R64). -/
def execGfDbl (s : State) : Host.Outcome State Fault Refusal :=
  runCommand (fun s => .ok { s with r := double s.a }) s

/-- `GF_MUL` (R65). -/
def execGfMul (s : State) : Host.Outcome State Fault Refusal :=
  runCommand (fun s => .ok { s with r := multiply s.a s.b }) s

/-- `GF_POW`: the exponent is `B` as an unsigned integer (R66). -/
def execGfPow (s : State) : Host.Outcome State Fault Refusal :=
  runCommand (fun s => .ok { s with r := power s.a s.b.toNat }) s

/-- `GF_INV` (R67). -/
def execGfInv (s : State) : Host.Outcome State Fault Refusal :=
  runCommand (fun s => .ok { s with r := inverse s.a }) s

end Sys2Proof.Machine
end

