-- ==== Sys2Proof/Machine/SBox.lean ====
section
/-! DEFINITION. Sys2Proof/Machine/SBox.lean: the S-box as a function, its inverse by search, and their two commands
(41_sbox.md). There is no table (R75). -/

namespace Sys2Proof.Machine

/-- `rotl8(y, n)` for `1 <= n <= 7` (00_scope.md R7 f). -/
def rotl8 (y : Byte) (n : Nat) : Byte := (y <<< n) ||| (y >>> (8 - n))

/-- The constant of the affine transform (R70). -/
def affineConstant : Byte := 0x63

/-- `forward_sbox(x)`: the field inverse, then the affine rotation transform (R70). -/
def forwardSbox (x : Byte) : Byte :=
  let y := inverse x
  y ^^^ rotl8 y 1 ^^^ rotl8 y 2 ^^^ rotl8 y 3 ^^^ rotl8 y 4 ^^^ affineConstant

/-- The search of `inverse_sbox`: `n` candidates from `v` upward (R71). Irreducible, so that no unifier runs the
search by itself. -/
@[irreducible] def searchSbox : Nat → Nat → Byte → Option Byte
  | 0, _, _ => none
  | n + 1, v, x =>
    if forwardSbox (BitVec.ofNat 8 v) = x then some (BitVec.ofNat 8 v) else searchSbox n (v + 1) x

/-- `inverse_sbox(x)`: the first `v` of 0 to 255 with `forward_sbox(v) = x`, else `InvariantFault` (R71). -/
@[irreducible] def inverseSbox (x : Byte) : Except CommandError Byte :=
  match searchSbox 256 0 x with
  | some v => .ok v
  | none => .error .invariantFault

/-! ### The commands -/

/-- `SBOX_FWD` (R73). -/
def execSboxFwd (s : State) : Host.Outcome State Fault Refusal :=
  runCommand (fun s => .ok { s with r := forwardSbox s.a }) s

/-- `SBOX_INV` (R74). -/
def execSboxInv (s : State) : Host.Outcome State Fault Refusal :=
  runCommand (fun s =>
    match inverseSbox s.a with
    | .ok v => .ok { s with r := v }
    | .error e => .error e) s

end Sys2Proof.Machine
end

