-- ==== Sys2Proof/Machine/StateTransforms.lean ====
section
/-! DEFINITION. Sys2Proof/Machine/StateTransforms.lean: the conversion between a block and the State grid, the round
primitives and their inverses, and the nine transform commands (42_state_transforms.md). -/

namespace Sys2Proof.Machine

/-! ### Block and State -/

/-- `bytes_to_state(b)`: `s[r][c] = b[r + 4c]` (R80). A sequence shorter than 16 reads as if followed by zeros, which
no command asks for (notes/assumptions/11.md). -/
def bytesToState (b : List Byte) : Grid := Grid.ofFn (fun r c => b.getD (r.val + 4 * c.val) 0)

/-- `state_to_bytes(s)`: `b[k] = s[k mod 4][k div 4]` (R81). -/
def stateToBytes (s : Grid) : List Byte :=
  (List.finRange 16).map (fun k => (s[k.val % 4]'(by omega))[k.val / 4]'(by omega))

/-! ### The functions -/

/-- `sub_bytes(s)` (R82). -/
def subBytes (s : Grid) : Grid := Grid.ofFn (fun r c => forwardSbox s[r][c])

/-- Four results in order, or the first error among them. -/
def allFour {α : Type} (f : Fin 4 → Except CommandError α) : Except CommandError (Vector α 4) := do
  let x0 ← f 0
  let x1 ← f 1
  let x2 ← f 2
  let x3 ← f 3
  pure #v[x0, x1, x2, x3]

/-- `inv_sub_bytes(s)`: `InvariantFault` if one of the 16 searches finds no match (R83, R94). -/
def invSubBytes (s : Grid) : Except CommandError Grid :=
  allFour (fun r => allFour (fun c => inverseSbox s[r][c]))

/-- `shift_rows(s)`: row `r` rotated left by `r`; column indices are taken modulo 4 (R84). -/
def shiftRows (s : Grid) : Grid := Grid.ofFn (fun r c => s[r][c + r])

/-- `inv_shift_rows(s)`: row `r` rotated right by `r`; column indices are taken modulo 4 (R85). -/
def invShiftRows (s : Grid) : Grid := Grid.ofFn (fun r c => s[r][c - r])

/-- The forward coefficients `F` (R86). -/
def mixCoefficients : Vector Byte 4 := #v[2, 3, 1, 1]

/-- The inverse coefficients `G`, decimal (R87). -/
def invMixCoefficients : Vector Byte 4 := #v[14, 11, 13, 9]

/-- The product of every column with the matrix whose row `i` is `k` rotated right by `i`:
entry `i`, `c` is the XOR over `j` of `multiply(k[(j - i) mod 4], s[j][c])` (R86, R87, R88). -/
def mixWith (k : Vector Byte 4) (s : Grid) : Grid :=
  Grid.ofFn (fun i c =>
    multiply k[0 - i] s[0][c] ^^^ multiply k[1 - i] s[1][c] ^^^ multiply k[2 - i] s[2][c]
      ^^^ multiply k[3 - i] s[3][c])

/-- `mix_columns(s)` (R86). -/
def mixColumns (s : Grid) : Grid := mixWith mixCoefficients s

/-- `inv_mix_columns(s)` (R87). -/
def invMixColumns (s : Grid) : Grid := mixWith invMixCoefficients s

/-- `add_round_key(s, w)`: Byte `i` of Word `c` into row `i`, column `c` (R90). -/
def addRoundKey (s : Grid) (w : Vector Word 4) : Grid := Grid.ofFn (fun i c => s[i][c] ^^^ byteOf w[c] i)

/-- Round key `r`: the four Words `w[4r]` to `w[4r+3]` (R46, R105). -/
def roundKey (w : Schedule) (r : Nat) : Vector Word 4 := Vector.ofFn (fun c => Schedule.word w (4 * r + c.val))

/-! ### The commands -/

/-- `ST_LOAD` (R91). -/
def execStLoad (s : State) : Host.Outcome State Fault Refusal :=
  runCommand (fun s =>
    if s.slen.toNat ≠ 16 then .error .lengthError
    else if s.inMem s.sptr 16 then .ok { s with st := bytesToState s.sourceBlock }
    else .error .accessFault) s

/-- `ST_STORE` (R92). -/
def execStStore (s : State) : Host.Outcome State Fault Refusal :=
  runCommand (fun s => s.storeResult (stateToBytes s.st)) s

/-- `SUB_BYTES` (R93). -/
def execSubBytes (s : State) : Host.Outcome State Fault Refusal :=
  runCommand (fun s => .ok { s with st := subBytes s.st }) s

/-- `INV_SUB_BYTES` (R94). -/
def execInvSubBytes (s : State) : Host.Outcome State Fault Refusal :=
  runCommand (fun s =>
    match invSubBytes s.st with
    | .ok g => .ok { s with st := g }
    | .error e => .error e) s

/-- `SHIFT_ROWS` (R95). -/
def execShiftRows (s : State) : Host.Outcome State Fault Refusal :=
  runCommand (fun s => .ok { s with st := shiftRows s.st }) s

/-- `INV_SHIFT_ROWS` (R96). -/
def execInvShiftRows (s : State) : Host.Outcome State Fault Refusal :=
  runCommand (fun s => .ok { s with st := invShiftRows s.st }) s

/-- `MIX_COLUMNS` (R97). -/
def execMixColumns (s : State) : Host.Outcome State Fault Refusal :=
  runCommand (fun s => .ok { s with st := mixColumns s.st }) s

/-- `INV_MIX_COLUMNS` (R98). -/
def execInvMixColumns (s : State) : Host.Outcome State Fault Refusal :=
  runCommand (fun s => .ok { s with st := invMixColumns s.st }) s

/-- `ADD_ROUND_KEY r` (R99). `r` above 10 is no command (R46), so it raises `IllegalCommand`
(notes/assumptions/9.md). -/
def execAddRoundKey (r : BitVec 4) (s : State) : Host.Outcome State Fault Refusal :=
  runCommand (fun s =>
    if 10 < r.toNat then .error .illegalCommand
    else if s.rklen.toNat < 4 * r.toNat + 4 then .error .lengthError
    else .ok { s with st := addRoundKey s.st (roundKey s.rk r.toNat) }) s

end Sys2Proof.Machine
end

