-- ==== Sys2Proof/Machine/KeySchedule.lean ====
section
/-! DEFINITION. Sys2Proof/Machine/KeySchedule.lean: the key schedule and `KEY_EXPAND` (43_key_schedule.md). -/

namespace Sys2Proof.Machine

/-- `rotl32(w, n)` (00_scope.md R7 f). -/
def rotl32 (w : Word) (n : Nat) : Word := (w <<< n) ||| (w >>> (32 - n))

/-- `RotWord(w)` (R101). -/
def rotWord (w : Word) : Word := rotl32 w 8

/-- `SubWord(w)` (R102). -/
def subWord (w : Word) : Word :=
  pack (forwardSbox (byteOf w 0)) (forwardSbox (byteOf w 1)) (forwardSbox (byteOf w 2)) (forwardSbox (byteOf w 3))

/-- `double` applied `n` times. -/
def doubleTimes : Nat → Byte → Byte
  | 0, v => v
  | n + 1, v => doubleTimes n (double v)

/-- `Rcon(r)`, used for `r` from 1 to 10: `double` applied `r - 1` times to 1, in byte 0 of a Word (R103). -/
def rcon (r : Nat) : Word := (doubleTimes (r - 1) 0x01).setWidth 32 <<< 24

/-- Word `i` of the key, for `i` from 0 to 3 (R100). -/
def keyWord (k : List Byte) (i : Nat) : Word :=
  pack (k.getD (4 * i) 0) (k.getD (4 * i + 1) 0) (k.getD (4 * i + 2) 0) (k.getD (4 * i + 3) 0)

/-- `temp` of the expansion for Word `i`, made from Word `i - 1` (R104). -/
def scheduleTemp (i : Nat) (prev : Word) : Word :=
  if i % 4 = 0 then subWord (rotWord prev) ^^^ rcon (i / 4) else prev

/-- The first `n` Words of the expansion (R104). -/
def expandWords (k : List Byte) : Nat → List Word
  | 0 => []
  | i + 1 =>
    let w := expandWords k i
    w ++ [if i < 4 then keyWord k i else w.getD (i - 4) 0 ^^^ scheduleTemp i (w.getD (i - 1) 0)]

/-- `expand_key(k)`: 44 Words (R104). -/
def expandKey (k : List Byte) : Schedule :=
  let w := expandWords k 44
  Vector.ofFn (fun i => w.getD i.val 0)

/-- The number of Words in a full schedule (R6, R13). -/
def scheduleLength : Nat := 44

/-! ### The command -/

/-- `KEY_EXPAND` (R106). -/
def execKeyExpand (s : State) : Host.Outcome State Fault Refusal :=
  runCommand (fun s =>
    if s.klen.toNat ≠ 16 then .error .lengthError
    else if s.inMem s.kptr 16 then
      .ok { s with rk := expandKey s.keyBytes, rklen := BitVec.ofNat 32 scheduleLength }
    else .error .accessFault) s

end Sys2Proof.Machine
end

