-- ==== Sys2Proof/Machine/BlockCipher.lean ====
section
/-! DEFINITION. Sys2Proof/Machine/BlockCipher.lean: the 10-round block cipher on one block and its two commands
(44_block_cipher.md). The State of a block operation is a value inside the command (R115). -/

namespace Sys2Proof.Machine

/-- Rounds 1 to `n` of `encrypt_block`, each with column mixing (R110). -/
def encryptRounds (w : Schedule) : Nat → Grid → Grid
  | 0, s => s
  | n + 1, s => addRoundKey (mixColumns (shiftRows (subBytes (encryptRounds w n s)))) (roundKey w (n + 1))

/-- `encrypt_block(b, w)` (R110). -/
def encryptBlock (b : List Byte) (w : Schedule) : List Byte :=
  let s := encryptRounds w 9 (addRoundKey (bytesToState b) (roundKey w 0))
  stateToBytes (addRoundKey (shiftRows (subBytes s)) (roundKey w 10))

/-- Rounds `n` down to 1 of `decrypt_block`, each with inverse column mixing (R111). -/
def decryptRounds (w : Schedule) : Nat → Grid → Except CommandError Grid
  | 0, s => .ok s
  | n + 1, s =>
    match invSubBytes (invShiftRows s) with
    | .error e => .error e
    | .ok g => decryptRounds w n (invMixColumns (addRoundKey g (roundKey w (n + 1))))

/-- `decrypt_block(b, w)`; an inverse S-box search with no match is an `InvariantFault` (R111, R114). -/
def decryptBlock (b : List Byte) (w : Schedule) : Except CommandError (List Byte) :=
  match decryptRounds w 9 (addRoundKey (bytesToState b) (roundKey w 10)) with
  | .error e => .error e
  | .ok s =>
    match invSubBytes (invShiftRows s) with
    | .error e => .error e
    | .ok g => .ok (stateToBytes (addRoundKey g (roundKey w 0)))

/-- The length tests of both block commands (R113, R114, R141). -/
def State.blockLengthsOk (s : State) : Bool := s.slen.toNat == 16 && s.rklen.toNat == scheduleLength

/-! ### The commands -/

/-- `BLK_ENC` (R113). -/
def execBlkEnc (s : State) : Host.Outcome State Fault Refusal :=
  runCommand (fun s =>
    if !s.blockLengthsOk then .error .lengthError
    else if !s.inMem s.sptr 16 then .error .accessFault
    else s.storeResult (encryptBlock s.sourceBlock s.rk)) s

/-- `BLK_DEC` (R114). -/
def execBlkDec (s : State) : Host.Outcome State Fault Refusal :=
  runCommand (fun s =>
    if !s.blockLengthsOk then .error .lengthError
    else if !s.inMem s.sptr 16 then .error .accessFault
    else
      match decryptBlock s.sourceBlock s.rk with
      | .error e => .error e
      | .ok out => s.storeResult out) s

end Sys2Proof.Machine
end

