-- ==== Sys2Proof/Machine/PaddingCbc.lean ====
section
/-! DEFINITION. Sys2Proof/Machine/PaddingCbc.lean: PKCS#7 padding, CBC chaining and their four commands
(45_padding_cbc.md). -/

namespace Sys2Proof.Machine

/-- The block size, which is the padding block size of every command (R6, D28). -/
def blockSize : Nat := 16

/-! ### Padding -/

/-- `pkcs7_pad(data, bs)`, for `1 <= bs <= 255` (R120; notes/assumptions/10.md). -/
def pkcs7Pad (data : List Byte) (bs : Nat) : List Byte :=
  let n := bs - data.length % bs
  data ++ List.replicate n (BitVec.ofNat 8 n)

/-- `pkcs7_unpad(data, bs)`, for `1 <= bs <= 255`, tests in the order of R121 (notes/assumptions/10.md). -/
def pkcs7Unpad (data : List Byte) (bs : Nat) : Except CommandError (List Byte) :=
  if data.length = 0 then .error .paddingError
  else if data.length % bs ≠ 0 then .error .paddingError
  else
    let n := data.getD (data.length - 1) 0
    if n.toNat = 0 ∨ bs < n.toNat then .error .paddingError
    else if (data.drop (data.length - n.toNat)).any (fun x => x ≠ n) then .error .paddingError
    else .ok (data.take (data.length - n.toNat))

/-! ### Chaining -/

/-- `x ^ y` of two blocks (R122). -/
def xorBlock (x y : List Byte) : List Byte := List.zipWith (fun a b => a ^^^ b) x y

/-- The chain of `cbc_encrypt` over the first `n` blocks of `p` (R123). -/
def encryptChain (w : Schedule) : Nat → List Byte → List Byte → List Byte
  | 0, _, _ => []
  | n + 1, chain, p =>
    let c := encryptBlock (xorBlock (p.take 16) chain) w
    c ++ encryptChain w n c (p.drop 16)

/-- The chain of `cbc_decrypt` over the first `n` blocks of `ct`: the chain value is the ciphertext block as
received (R124). -/
def decryptChain (w : Schedule) : Nat → List Byte → List Byte → Except CommandError (List Byte)
  | 0, _, _ => .ok []
  | n + 1, chain, ct =>
    let c := ct.take 16
    match decryptBlock c w with
    | .error e => .error e
    | .ok d =>
      match decryptChain w n c (ct.drop 16) with
      | .error e => .error e
      | .ok rest => .ok (xorBlock d chain ++ rest)

/-- `cbc_encrypt(key, iv, pt, np)` (R123). -/
def cbcEncrypt (key iv pt : List Byte) (np : Bool) : Except CommandError (List Byte) :=
  if key.length ≠ 16 ∨ iv.length ≠ 16 then .error .lengthError
  else if np && !positiveMultipleOf16 pt.length then .error .lengthError
  else
    let p := if np then pt else pkcs7Pad pt blockSize
    .ok (encryptChain (expandKey key) (p.length / 16) iv p)

/-- `cbc_decrypt(key, iv, ct, np)` (R124). -/
def cbcDecrypt (key iv ct : List Byte) (np : Bool) : Except CommandError (List Byte) :=
  if key.length ≠ 16 ∨ iv.length ≠ 16 then .error .lengthError
  else if !positiveMultipleOf16 ct.length then .error .lengthError
  else
    match decryptChain (expandKey key) (ct.length / 16) iv ct with
    | .error e => .error e
    | .ok p => if np then .ok p else pkcs7Unpad p blockSize

/-- The key and IV length tests of both chaining commands (R128, R129, R141). -/
def State.keyIvLengthsOk (s : State) : Bool := s.klen.toNat == 16 && s.ilen.toNat == 16

/-- The source-range tests of both chaining commands (R128, R129). -/
def State.cbcSourcesInMem (s : State) : Bool :=
  s.inMem s.kptr 16 && s.inMem s.iptr 16 && s.inMem s.sptr s.slen.toNat

/-! ### The commands -/

/-- `PKCS7_PAD` (R126). -/
def execPkcs7Pad (s : State) : Host.Outcome State Fault Refusal :=
  runCommand (fun s =>
    if !s.inMem s.sptr s.slen.toNat then .error .accessFault
    else s.storeResult (pkcs7Pad s.sourceBytes blockSize)) s

/-- `PKCS7_UNPAD` (R127). -/
def execPkcs7Unpad (s : State) : Host.Outcome State Fault Refusal :=
  runCommand (fun s =>
    if !s.inMem s.sptr s.slen.toNat then .error .accessFault
    else
      match pkcs7Unpad s.sourceBytes blockSize with
      | .error e => .error e
      | .ok out => s.storeResult out) s

/-- `CBC_ENC [np]` (R128). -/
def execCbcEnc (np : Bool) (s : State) : Host.Outcome State Fault Refusal :=
  runCommand (fun s =>
    if !s.keyIvLengthsOk then .error .lengthError
    else if np && !positiveMultipleOf16 s.slen.toNat then .error .lengthError
    else if !s.cbcSourcesInMem then .error .accessFault
    else
      match cbcEncrypt s.keyBytes s.ivBytes s.sourceBytes np with
      | .error e => .error e
      | .ok out => s.storeResult out) s

/-- `CBC_DEC [np]` (R129). -/
def execCbcDec (np : Bool) (s : State) : Host.Outcome State Fault Refusal :=
  runCommand (fun s =>
    if !s.keyIvLengthsOk then .error .lengthError
    else if !positiveMultipleOf16 s.slen.toNat then .error .lengthError
    else if !s.cbcSourcesInMem then .error .accessFault
    else
      match cbcDecrypt s.keyBytes s.ivBytes s.sourceBytes np with
      | .error e => .error e
      | .ok out => s.storeResult out) s

end Sys2Proof.Machine
end

