-- ==== Sys2Proof/Machine/Dispatch.lean ====
section
/-! DEFINITION. Sys2Proof/Machine/Dispatch.lean: which meaning each command has. -/

namespace Sys2Proof.Machine

def exec (i : Instr) (s : State) : Host.Outcome State Fault Refusal :=
  match i with
  | .gfDbl => Sys2Proof.Machine.execGfDbl s
  | .gfMul => Sys2Proof.Machine.execGfMul s
  | .gfPow => Sys2Proof.Machine.execGfPow s
  | .gfInv => Sys2Proof.Machine.execGfInv s
  | .sboxFwd => Sys2Proof.Machine.execSboxFwd s
  | .sboxInv => Sys2Proof.Machine.execSboxInv s
  | .stLoad => Sys2Proof.Machine.execStLoad s
  | .stStore => Sys2Proof.Machine.execStStore s
  | .subBytes => Sys2Proof.Machine.execSubBytes s
  | .invSubBytes => Sys2Proof.Machine.execInvSubBytes s
  | .shiftRows => Sys2Proof.Machine.execShiftRows s
  | .invShiftRows => Sys2Proof.Machine.execInvShiftRows s
  | .mixColumns => Sys2Proof.Machine.execMixColumns s
  | .invMixColumns => Sys2Proof.Machine.execInvMixColumns s
  | .addRoundKey r => Sys2Proof.Machine.execAddRoundKey r s
  | .keyExpand => Sys2Proof.Machine.execKeyExpand s
  | .blkEnc => Sys2Proof.Machine.execBlkEnc s
  | .blkDec => Sys2Proof.Machine.execBlkDec s
  | .pkcs7Pad => Sys2Proof.Machine.execPkcs7Pad s
  | .pkcs7Unpad => Sys2Proof.Machine.execPkcs7Unpad s
  | .cbcEnc np => Sys2Proof.Machine.execCbcEnc np s
  | .cbcDec np => Sys2Proof.Machine.execCbcDec np s

end Sys2Proof.Machine
end

