-- ==== Sys2Proof/Machine/HostPort.lean ====
section
/-! DEFINITION. Sys2Proof/Machine/HostPort.lean: the five host primitives and the command a write to `CMD` runs
(20_memory.md R38, R39). -/

namespace Sys2Proof.Machine

/-- A write of a word to `CMD` runs the command it encodes, to its end (10_state.md R15, 60_exceptions.md R147):
`Locked` before the word is decoded, `IllegalCommand` where it is none, else the command's meaning. -/
def writeCmd (w : Word) (s : State) : Host.Outcome State Fault Refusal :=
  if s.fatal then .next (s.raise .locked)
  else
    match decode w with
    | .error _ => runIllegal s
    | .ok i => exec i s

/-- `HostWriteReg(off, v)` (R38, R39). -/
def hostWriteReg (off : Nat) (v : Word) (s : State) : Host.Outcome State Fault Refusal :=
  match regAt off with
  | none => .refused (.hostRegUnlisted off)
  | some .cmd => writeCmd v s
  | some reg => .next (s.writeReg reg v)

/-- `HostReadReg(off)` (R38, R39). -/
def hostReadReg (off : Nat) (s : State) : Host.Outcome State Fault Refusal :=
  match regAt off with
  | none => .refused (.hostRegUnlisted off)
  | some reg => .next { s with returned := some (.reg (s.readReg reg)) }

/-- `HostWriteMem(a, b)` (R38). -/
def hostWriteMem (a : Nat) (b : Byte) (s : State) : Host.Outcome State Fault Refusal :=
  if a < s.memSize then .next (s.memWrite a [b]) else .refused (.hostMemOutOfRange a)

/-- `HostReadMem(a)` (R38). -/
def hostReadMem (a : Nat) (s : State) : Host.Outcome State Fault Refusal :=
  if a < s.memSize then .next { s with returned := some (.byte (s.byteAt a)) } else .refused (.hostMemOutOfRange a)

/-- One host primitive (R38). -/
def hostOp (op : HostOp) (s : State) : Host.Outcome State Fault Refusal :=
  match op with
  | .writeReg off v => hostWriteReg off v s
  | .readReg off => hostReadReg off s
  | .writeMem a b => hostWriteMem a b s
  | .readMem a => hostReadMem a s
  | .reset => .next s.hostReset

/-- The state in which the first pending primitive is performed: it is no longer pending and has given nothing back. -/
def State.start (s : State) (rest : List HostOp) : State := { s with pending := rest, returned := none }

end Sys2Proof.Machine
end

