-- ==== Sys2Proof/Machine/Step.lean ====
section
/-! DEFINITION. Sys2Proof/Machine/Step.lean: one step is one host primitive (20_memory.md R38, R41). -/

namespace Sys2Proof.Machine

/-- One step: the first pending primitive, or nothing while the host asks for nothing (R41 a, R153, R170). -/
def step (s : State) : Host.Outcome State Fault Refusal :=
  match s.pending with
  | [] => .next s
  | op :: rest => hostOp op (s.start rest)

/-- The state whose next step runs the command word `w`: the host's next primitive is the write of `w` to `CMD`
(R15; notes/assumptions/3.md). -/
def State.withFetchWord (s : State) (nbits w : Nat) : State :=
  { s with pending := .writeReg 0x000 (BitVec.ofNat 32 (w % 2 ^ nbits)) :: s.pending }

end Sys2Proof.Machine
end

