-- ==== Sys2Proof/WellFormed.lean ====
section
/-! DEFINITION. Sys2Proof/WellFormed.lean: which commands have an encoding, and which host primitives the spec
gives a meaning. -/

namespace Sys2Proof

/-- A command is well-formed when its operands are legal: the round-key index is 0 to 10 (30_encoding.md R46). -/
def Instr.wf : Instr → Bool
  | .gfDbl => true
  | .gfMul => true
  | .gfPow => true
  | .gfInv => true
  | .sboxFwd => true
  | .sboxInv => true
  | .stLoad => true
  | .stStore => true
  | .subBytes => true
  | .invSubBytes => true
  | .shiftRows => true
  | .invShiftRows => true
  | .mixColumns => true
  | .invMixColumns => true
  | .addRoundKey r => r.toNat ≤ 10
  | .keyExpand => true
  | .blkEnc => true
  | .blkDec => true
  | .pkcs7Pad => true
  | .pkcs7Unpad => true
  | .cbcEnc _ => true
  | .cbcDec _ => true

/-- An offset of REG space that holds a register: a multiple of 4 outside the gaps `0x018`, `0x01C`, `0x050` to
`0x0FC` and `0x1B0` upward (20_memory.md R39, U2). -/
def regOffsetListed (off : Nat) : Bool :=
  off % 4 == 0 && (off ≤ 0x014 || (0x020 ≤ off && off ≤ 0x04C) || (0x100 ≤ off && off ≤ 0x1AC))

/-- A host primitive is well-formed for a MEM of `memSize` Bytes when the spec gives it an effect (R38, U2). -/
def HostOp.wf (memSize : Nat) : HostOp → Bool
  | .writeReg off _ => regOffsetListed off
  | .readReg off => regOffsetListed off
  | .writeMem a _ => a < memSize
  | .readMem a => a < memSize
  | .reset => true

end Sys2Proof
end

