-- ==== Sys2Proof/Safety.lean ====
section
/-! DEFINITION. Sys2Proof/Safety.lean: the invariant of CORE, what a host that keeps to the spec does, and the terms
in which claims about commands are stated. -/

namespace Sys2Proof.Machine

/-! ### The invariant -/

/-- `MEM` keeps its canonical form and lists no address outside itself (20_memory.md R30). -/
def State.memOk (s : State) : Prop := Memory.wf s.mem = true ∧ Memory.within s.memSize s.mem = true

/-- `ERR` is 0 to 6 and bits 31:5 read as 0 (10_state.md R16, U6). -/
def statusLegal (status : Word) : Prop := (errField status).toNat ≤ 6 ∧ status.toNat < 32

/-- `1 <= MEMSIZE <= 2^32 - 1` (00_scope.md R6). -/
def State.sizeOk (s : State) : Prop := 1 ≤ s.memSize ∧ s.memSize ≤ 2 ^ 32 - 1

/-- The invariant of CORE: what holds at reset and after every step from it. -/
structure State.Inv (s : State) : Prop where
  memOk : s.memOk
  statusLegal : statusLegal s.status
  notFatal : s.fatal = false
  sizeOk : s.sizeOk

/-- The host asks only for primitives the spec gives an effect (R38, U2). -/
def State.hostOk (s : State) : Prop := s.pending.all (fun op => op.wf s.memSize) = true

/-! ### Terms of the claims about commands -/

/-- A word and a command are each other's encoding (30_encoding.md R48). -/
def Encodes (w : Word) (i : Instr) : Prop := decode w = .ok i ∧ encode i = w

/-- While `FATAL` is 1 the command is refused with `Locked` and nothing but `STATUS` changes (60_exceptions.md R146). -/
def RefusedWhenFatal (i : Instr) (s : State) : Prop :=
  s.fatal = true → exec i s = .next { s with status := 0x16 }

/-- The command ends in an error that changes `STATUS` only (R148); `code` is the error's code (R140). -/
def EndsInError (i : Instr) (s : State) (code : Word) : Prop := exec i s = .next { s with status := code }

/-- `t` is `s` after a storing command succeeded with the result `out` at address `addr`: `DLEN` is the number of
Bytes, `STATUS` is `OK`, the destination holds `out`, and every other Byte and every other element is as before. -/
def StoredAt (s t : State) (addr : Nat) (out : List Byte) : Prop :=
  t = { s with mem := t.mem, dlen := BitVec.ofNat 32 out.length, status := 0 }
    ∧ t.memRead addr out.length = out
    ∧ ∀ x, x < addr ∨ addr + out.length ≤ x → t.byteAt x = s.byteAt x

/-- Every Byte of `MEM` from `addr` to `addr + n - 1` is the same in both states. -/
def SameBytes (s u : State) (addr n : Nat) : Prop := ∀ k, k < n → s.byteAt (addr + k) = u.byteAt (addr + k)

/-- A byte sequence that is one block. -/
def IsBlock (b : List Byte) : Prop := b.length = 16

/-- Block `j` of a byte sequence: `p[16j .. 16j+16)` (45_padding_cbc.md R123). -/
def blockOf (p : List Byte) (j : Nat) : List Byte := (p.drop (16 * j)).take 16

/-- The chain value of block `j`: the initialisation vector for block 0, else ciphertext block `j - 1` (R123, R124). -/
def chainOf (iv ct : List Byte) (j : Nat) : List Byte := if j = 0 then iv else blockOf ct (j - 1)

/-- The product of two field elements as the XOR, over the set bits `i` of `b`, of `a` doubled `i` times
(40_gf_arithmetic.md R61). -/
def fieldProduct (a b : Byte) : Byte :=
  (List.range 8).foldl (fun acc i => if b.getLsbD i then acc ^^^ double^[i] a else acc) 0

/-- Column `c` of a grid, row 0 first, after the product with the 4 by 4 matrix `m` over the field (42 R86, R87). -/
def matrixTimesColumn (m : Fin 4 → Fin 4 → Byte) (g : Grid) (i c : Fin 4) : Byte :=
  multiply (m i 0) g[0][c] ^^^ multiply (m i 1) g[1][c] ^^^ multiply (m i 2) g[2][c] ^^^ multiply (m i 3) g[3][c]

/-- The matrix of `mix_columns`, written out (42_state_transforms.md R86). -/
def mixMatrix : Fin 4 → Fin 4 → Byte :=
  ![![2, 3, 1, 1], ![1, 2, 3, 1], ![1, 1, 2, 3], ![3, 1, 1, 2]]

/-- The matrix of `inv_mix_columns`, written out, decimal (42_state_transforms.md R87). -/
def invMixMatrix : Fin 4 → Fin 4 → Byte :=
  ![![14, 11, 13, 9], ![9, 14, 11, 13], ![13, 9, 14, 11], ![11, 13, 9, 14]]

/-- The complete list of length tests (60_exceptions.md R141). -/
def lengthTest : Instr → State → Prop
  | .stLoad, s => s.slen ≠ 16
  | .addRoundKey r, s => s.rklen.toNat < 4 * r.toNat + 4
  | .keyExpand, s => s.klen ≠ 16
  | .blkEnc, s => s.slen ≠ 16 ∨ s.rklen ≠ 44
  | .blkDec, s => s.slen ≠ 16 ∨ s.rklen ≠ 44
  | .cbcEnc np, s =>
    s.klen ≠ 16 ∨ s.ilen ≠ 16 ∨ (np = true ∧ (s.slen = 0 ∨ s.slen.toNat % 16 ≠ 0))
  | .cbcDec _, s => s.klen ≠ 16 ∨ s.ilen ≠ 16 ∨ s.slen = 0 ∨ s.slen.toNat % 16 ≠ 0
  | .gfDbl, _ | .gfMul, _ | .gfPow, _ | .gfInv, _ | .sboxFwd, _ | .sboxInv, _ | .stStore, _ | .subBytes, _
  | .invSubBytes, _ | .shiftRows, _ | .invShiftRows, _ | .mixColumns, _ | .invMixColumns, _ | .pkcs7Pad, _
  | .pkcs7Unpad, _ => False

/-- A source range leaves `MEM` (20_memory.md R35, 60_exceptions.md R145). -/
def sourceRangeTest : Instr → State → Prop
  | .stLoad, s | .blkEnc, s | .blkDec, s => s.memSize < s.sptr.toNat + 16
  | .keyExpand, s => s.memSize < s.kptr.toNat + 16
  | .pkcs7Pad, s | .pkcs7Unpad, s => s.memSize < s.sptr.toNat + s.slen.toNat
  | .cbcEnc _, s | .cbcDec _, s =>
    s.memSize < s.kptr.toNat + 16 ∨ s.memSize < s.iptr.toNat + 16 ∨ s.memSize < s.sptr.toNat + s.slen.toNat
  | .gfDbl, _ | .gfMul, _ | .gfPow, _ | .gfInv, _ | .sboxFwd, _ | .sboxInv, _ | .stStore, _ | .subBytes, _
  | .invSubBytes, _ | .shiftRows, _ | .invShiftRows, _ | .mixColumns, _ | .invMixColumns, _ | .addRoundKey _, _ =>
    False

/-- The result a storing command writes at `DPTR`, or the error its computation ends in; none for the commands that
store nothing (60_exceptions.md R147 step 5). -/
def storedResult : Instr → State → Option (Except CommandError (List Byte))
  | .stStore, s => some (.ok (stateToBytes s.st))
  | .blkEnc, s => some (.ok (encryptBlock s.sourceBlock s.rk))
  | .blkDec, s => some (decryptBlock s.sourceBlock s.rk)
  | .pkcs7Pad, s => some (.ok (pkcs7Pad s.sourceBytes 16))
  | .pkcs7Unpad, s => some (pkcs7Unpad s.sourceBytes 16)
  | .cbcEnc np, s => some (cbcEncrypt s.keyBytes s.ivBytes s.sourceBytes np)
  | .cbcDec np, s => some (cbcDecrypt s.keyBytes s.ivBytes s.sourceBytes np)
  | .gfDbl, _ | .gfMul, _ | .gfPow, _ | .gfInv, _ | .sboxFwd, _ | .sboxInv, _ | .stLoad, _ | .subBytes, _
  | .invSubBytes, _ | .shiftRows, _ | .invShiftRows, _ | .mixColumns, _ | .invMixColumns, _ | .addRoundKey _, _
  | .keyExpand, _ => none

/-- The elements a command reads are the same in both states (10_state.md R22, column "reads"). -/
def SameReads : Instr → State → State → Prop
  | .gfDbl, s, u | .gfInv, s, u | .sboxFwd, s, u | .sboxInv, s, u => s.a = u.a
  | .gfMul, s, u | .gfPow, s, u => s.a = u.a ∧ s.b = u.b
  | .stLoad, s, u => s.sptr = u.sptr ∧ s.slen = u.slen ∧ SameBytes s u s.sptr.toNat 16
  | .stStore, s, u => s.st = u.st ∧ s.dptr = u.dptr
  | .subBytes, s, u | .invSubBytes, s, u | .shiftRows, s, u | .invShiftRows, s, u | .mixColumns, s, u
  | .invMixColumns, s, u => s.st = u.st
  | .addRoundKey r, s, u =>
    s.st = u.st ∧ s.rklen = u.rklen
      ∧ ∀ c : Nat, c < 4 → Schedule.word s.rk (4 * r.toNat + c) = Schedule.word u.rk (4 * r.toNat + c)
  | .keyExpand, s, u => s.kptr = u.kptr ∧ s.klen = u.klen ∧ SameBytes s u s.kptr.toNat 16
  | .blkEnc, s, u | .blkDec, s, u =>
    s.sptr = u.sptr ∧ s.slen = u.slen ∧ SameBytes s u s.sptr.toNat 16 ∧ s.rklen = u.rklen ∧ s.rk = u.rk
      ∧ s.dptr = u.dptr
  | .pkcs7Pad, s, u | .pkcs7Unpad, s, u =>
    s.sptr = u.sptr ∧ s.slen = u.slen ∧ SameBytes s u s.sptr.toNat s.slen.toNat ∧ s.dptr = u.dptr
  | .cbcEnc _, s, u | .cbcDec _, s, u =>
    s.kptr = u.kptr ∧ s.klen = u.klen ∧ s.iptr = u.iptr ∧ s.ilen = u.ilen ∧ s.sptr = u.sptr ∧ s.slen = u.slen
      ∧ s.dptr = u.dptr ∧ SameBytes s u s.kptr.toNat 16 ∧ SameBytes s u s.iptr.toNat 16
      ∧ SameBytes s u s.sptr.toNat s.slen.toNat

/-- Both states got the same values in the elements a command writes (10_state.md R22, column "writes on success"). -/
def SameWrites : Instr → State → State → Prop
  | .gfDbl, s, u | .gfMul, s, u | .gfPow, s, u | .gfInv, s, u | .sboxFwd, s, u | .sboxInv, s, u => s.r = u.r
  | .stLoad, s, u | .subBytes, s, u | .invSubBytes, s, u | .shiftRows, s, u | .invShiftRows, s, u
  | .mixColumns, s, u | .invMixColumns, s, u | .addRoundKey _, s, u => s.st = u.st
  | .keyExpand, s, u => s.rk = u.rk ∧ s.rklen = u.rklen
  | .stStore, s, u | .blkEnc, s, u | .blkDec, s, u | .pkcs7Pad, s, u | .pkcs7Unpad, s, u | .cbcEnc _, s, u
  | .cbcDec _, s, u => s.dlen = u.dlen ∧ SameBytes s u s.dptr.toNat s.dlen.toNat

/-- `t` differs from `s` in nothing but the elements a command writes and `STATUS` (10_state.md R22). Of `MEM` a
storing command changes only the `DLEN` Bytes at `DPTR`. -/
def WritesOnly : Instr → State → State → Prop
  | .gfDbl, s, t | .gfMul, s, t | .gfPow, s, t | .gfInv, s, t | .sboxFwd, s, t | .sboxInv, s, t =>
    t = { s with r := t.r, status := t.status }
  | .stLoad, s, t | .subBytes, s, t | .invSubBytes, s, t | .shiftRows, s, t | .invShiftRows, s, t
  | .mixColumns, s, t | .invMixColumns, s, t | .addRoundKey _, s, t =>
    t = { s with st := t.st, status := t.status }
  | .keyExpand, s, t => t = { s with rk := t.rk, rklen := t.rklen, status := t.status }
  | .stStore, s, t | .blkEnc, s, t | .blkDec, s, t | .pkcs7Pad, s, t | .pkcs7Unpad, s, t | .cbcEnc _, s, t
  | .cbcDec _, s, t =>
    t = { s with mem := t.mem, dlen := t.dlen, status := t.status }
      ∧ ∀ x, x < s.dptr.toNat ∨ s.dptr.toNat + t.dlen.toNat ≤ x → t.byteAt x = s.byteAt x

/-- Run a list of commands one after another, each in the state the one before left. -/
def runCommands : List Instr → State → Host.Outcome State Fault Refusal
  | [], s => .next s
  | i :: rest, s =>
    match exec i s with
    | .next t => runCommands rest t
    | .fault f => .fault f
    | .refused r => .refused r

/-- One encryption by the primitive commands: 42 commands (44_block_cipher.md R116). -/
def encryptionByPrimitives : List Instr :=
  [.stLoad, .addRoundKey 0]
    ++ (List.range 9).flatMap
      (fun n => [.subBytes, .shiftRows, .mixColumns, .addRoundKey (BitVec.ofNat 4 (n + 1))])
    ++ [.subBytes, .shiftRows, .addRoundKey 10, .stStore]

/-- One decryption by the primitive commands: 42 commands (44_block_cipher.md R116). -/
def decryptionByPrimitives : List Instr :=
  [.stLoad, .addRoundKey 10]
    ++ (List.range 9).flatMap
      (fun n => [.invShiftRows, .invSubBytes, .addRoundKey (BitVec.ofNat 4 (9 - n)), .invMixColumns])
    ++ [.invShiftRows, .invSubBytes, .addRoundKey 0, .stStore]

end Sys2Proof.Machine
end

