-- ==== Sys2Proof/Certificates/Slice0/Obligations.lean ====
section
/-! DEFINITION. Sys2Proof/Certificates/Slice0/Obligations.lean: the statements for the provers. -/

open Sys2Proof Sys2Proof.Machine

/-! ### Encoding (30_encoding.md) -/

/-- Command words of R48, and words the spec calls illegal, decode as it says. -/
def Obligations.SampleWordsDecode : Prop :=
  decode 0x00000011 = .ok .gfMul ∧ decode 0x00000038 = .ok (.addRoundKey 0)
    ∧ decode 0x00000A38 = .ok (.addRoundKey 10) ∧ decode 0x00000062 = .ok (.cbcEnc false)
    ∧ decode 0x00001062 = .ok (.cbcEnc true) ∧ decode 0x00001063 = .ok (.cbcDec true)
    ∧ ∀ w ∈ ([0x00000B38, 0x00000F38, 0x00001038, 0x00000162, 0x00001011, 0x00000111, 0x00002011, 0x80000011,
        0x00000000, 0x000000FF, 0x00000014, 0x00000022, 0x00000039, 0x00000041, 0x00000052, 0x00000064] :
        List Word), ∃ e, decode w = .error e

/-- Decoding the word of a well-formed command gives the command back, with its operands. -/
def Obligations.DecodeOfEncode : Prop := ∀ i : Instr, i.wf = true → decode (encode i) = .ok i

/-- A word that decodes to a command is that command's word, and the command is well-formed. -/
def Obligations.EncodeOfDecode : Prop := ∀ (w : Word) (i : Instr), decode w = .ok i → i.wf = true ∧ encode i = w

/-- R48: the words of a row are those that match it under its mask, for `ADD_ROUND_KEY` with `r <= 10` in addition. -/
def Obligations.DecoderMatchesOpcodeTable : Prop :=
  ∀ w : Word,
    (∀ i, decode w = .ok i → w &&& (opcodeRow i).mask = (opcodeRow i).value)
      ∧ ∀ i, w &&& (opcodeRow i).mask = (opcodeRow i).value
          → ((opcodeRow i).mnemonic = "ADD_ROUND_KEY" → (rField w).toNat ≤ 10)
          → ∃ j, decode w = .ok j ∧ opcodeRow j = opcodeRow i

/-- R49: the words that are no command, and that such a word changes nothing but `STATUS`, where `ERR` is
`IllegalCommand`. -/
def Obligations.IllegalWords : Prop :=
  (∀ w : Word, (∃ e, decode w = .error e) ↔
    (opField w ∉ ([0x10, 0x11, 0x12, 0x13, 0x20, 0x21, 0x30, 0x31, 0x32, 0x33, 0x34, 0x35, 0x36, 0x37, 0x38, 0x40, 0x50,
        0x51, 0x60, 0x61, 0x62, 0x63] : List (BitVec 8))
      ∨ zeroField w ≠ 0
      ∨ (opField w ≠ 0x38 ∧ rField w ≠ 0)
      ∨ (opField w = 0x38 ∧ 11 ≤ (rField w).toNat)
      ∨ (opField w ≠ 0x62 ∧ opField w ≠ 0x63 ∧ npField w = true)))
    ∧ ∀ (s : State) (w : Word) (rest : List HostOp) (e : IllegalWord),
        s.pending = .writeReg 0x000 w :: rest → s.fatal = false → decode w = .error e
          → step s = .next { s.start rest with status := 1 }

/-! ### The step and the host (20_memory.md, 60_exceptions.md) -/

/-- A step whose first pending primitive writes a command word to `CMD` is the command's meaning, in the state where
that primitive is no longer pending. -/
def Obligations.StepRunsDecodedCommand : Prop :=
  ∀ (s : State) (w : Word) (rest : List HostOp) (i : Instr),
    s.pending = .writeReg 0x000 w :: rest → decode w = .ok i → step s = exec i (s.start rest)

/-- While the host asks for nothing a step changes nothing. The list of pending primitives is the model's choice
(notes/assumptions/3.md). -/
def Obligations.IdleStepChangesNothing : Prop := ∀ s : State, s.pending = [] → step s = .next s

/-- What a host read of a register returns, register by register at its offset (R39), and that it changes nothing. -/
def Obligations.HostRegisterReads : Prop :=
  ∀ (s : State) (rest : List HostOp) (off : Nat) (v : Word),
    s.pending = .readReg off :: rest
      → (off = 0x000 ∧ v = 0) ∨ (off = 0x004 ∧ v = s.status) ∨ (off = 0x008 ∧ v = s.a.setWidth 32)
        ∨ (off = 0x00C ∧ v = s.b.setWidth 32) ∨ (off = 0x010 ∧ v = s.r.setWidth 32) ∨ (off = 0x014 ∧ v = s.rklen)
        ∨ (off = 0x020 ∧ v = s.kptr) ∨ (off = 0x024 ∧ v = s.klen) ∨ (off = 0x028 ∧ v = s.iptr)
        ∨ (off = 0x02C ∧ v = s.ilen) ∨ (off = 0x030 ∧ v = s.sptr) ∨ (off = 0x034 ∧ v = s.slen)
        ∨ (off = 0x038 ∧ v = s.dptr) ∨ (off = 0x03C ∧ v = s.dlen)
        ∨ (∃ c : Fin 4, off = 0x040 + 4 * c.val
            ∧ v = s.st[0][c] ++ s.st[1][c] ++ s.st[2][c] ++ s.st[3][c])
        ∨ (∃ i : Fin 44, off = 0x100 + 4 * i.val ∧ v = s.rk[i])
      → step s = .next { s with pending := rest, returned := some (.reg v) }

/-- What a host write of a register other than `CMD` does, seen through what the registers then read as (R39): the
register holds the value, `A` and `B` its low 8 bits; `STATUS` and `R` ignore it; no other register, no Byte of `MEM`
and no parameter changes. There is no premise on `FATAL`. -/
def Obligations.HostRegisterWrites : Prop :=
  ∀ (s : State) (rest : List HostOp) (reg : RegName) (v : Word),
    reg ≠ .cmd → s.pending = .writeReg reg.offset v :: rest
      → ∃ t, step s = .next t ∧ t.pending = rest ∧ t.returned = none ∧ t.mem = s.mem ∧ t.memSize = s.memSize
        ∧ (∀ q, q ≠ reg → t.readReg q = s.readReg q)
        ∧ (reg = .status ∨ reg = .r → t.readReg reg = s.readReg reg)
        ∧ (reg = .a ∨ reg = .b → t.readReg reg = v &&& 0xFF)
        ∧ (reg ≠ .status → reg ≠ .r → reg ≠ .a → reg ≠ .b → t.readReg reg = v)

/-- A host write of a Byte of `MEM` changes that Byte alone, and a host read returns it and changes nothing (R31,
R38). -/
def Obligations.HostMemoryReadsAndWrites : Prop :=
  ∀ (s : State) (rest : List HostOp) (a : Nat), a < s.memSize →
    (∀ b, s.pending = .writeMem a b :: rest →
      ∃ t, step s = .next t ∧ t = { s with mem := t.mem, pending := rest, returned := none } ∧ t.byteAt a = b
        ∧ ∀ x, x ≠ a → t.byteAt x = s.byteAt x)
    ∧ (s.pending = .readMem a :: rest →
      step s = .next { s with pending := rest, returned := some (.byte (s.byteAt a)) })

/-- A step is refused exactly when its host primitive is one the spec puts outside itself (U2); a command never is. -/
def Obligations.OnlyUnlistedHostAccessRefused : Prop :=
  ∀ s : State,
    (∀ op rest, s.pending = op :: rest → (op.wf s.memSize = false ↔ ∃ r, step s = .refused r))
      ∧ (s.hostOk → ∃ t, step s = .next t ∧ t.hostOk)

/-- R40: host accesses other than a write to `CMD` and reset never change `STATUS`, and take effect also while `FATAL`
is 1: whatever the rest of the state, the effect of the primitive is the same. -/
def Obligations.HostAccessIgnoresStatus : Prop :=
  ∀ (s : State) (op : HostOp) (rest : List HostOp),
    s.pending = op :: rest → op.wf s.memSize = true → (∀ w, op ≠ .writeReg 0x000 w) → op ≠ .reset →
      ∃ t, step s = .next t ∧ t.status = s.status
        ∧ ((∀ off, op ≠ .readReg off) →
            ∀ status : Word, step { s with status := status } = .next { t with status := status })

/-- R146: while `FATAL` is 1 every word written to `CMD`, legal or not, changes `STATUS` alone, to `Locked`; every other
host primitive still works. -/
def Obligations.LockedRefusesEveryWord : Prop :=
  ∀ (s : State) (rest : List HostOp), s.fatal = true →
    (∀ w, s.pending = .writeReg 0x000 w :: rest → step s = .next { s.start rest with status := 0x16 })
      ∧ (∀ i, exec i s = .next { s with status := 0x16 })
      ∧ ∀ op, s.pending = op :: rest → op.wf s.memSize = true → ∃ t, step s = .next t
          ∧ (t.fatal = true ∨ op = .reset)

/-- R147: the outcome of a word written to `CMD` is the first that applies in the order Locked, Illegal, Length, source
range, computation, destination range, `OK`. -/
def Obligations.CheckOrder : Prop :=
  ∀ (s t : State) (w : Word) (rest : List HostOp),
    s.pending = .writeReg 0x000 w :: rest → step s = .next t →
      (s.fatal = true → t.err = 6)
      ∧ (s.fatal = false →
        (∀ e, decode w = .error e → t.err = 1)
        ∧ ∀ i, decode w = .ok i →
          (lengthTest i s → t.err = 2)
          ∧ (¬ lengthTest i s →
            (sourceRangeTest i s → t.err = 4)
            ∧ (¬ sourceRangeTest i s →
              (storedResult i s = none → t.err = 0)
              ∧ (∀ e, storedResult i s = some (.error e) → t.err = e.code ∧ e = .paddingError)
              ∧ ∀ out, storedResult i s = some (.ok out) →
                  (s.memSize < s.dptr.toNat + out.length → t.err = 4)
                  ∧ (s.dptr.toNat + out.length ≤ s.memSize → t.err = 0))))

/-- R141: a command ends in `LengthError` exactly when one of its length tests applies. -/
def Obligations.LengthErrorExactly : Prop :=
  ∀ (i : Instr) (s t : State), i.wf = true → s.fatal = false → exec i s = .next t → (t.err = 2 ↔ lengthTest i s)

/-- R148: an error changes `STATUS` only, and sets `FATAL` only when it is `InvariantFault`. -/
def Obligations.ErrorsChangeStatusOnly : Prop :=
  ∀ (i : Instr) (s t : State), exec i s = .next t → t.err ≠ 0 →
    t = { s with status := t.status } ∧ t.fatal = (s.fatal || t.err == 5)

/-- Every command ends in a next state, from every state (R180). -/
def Obligations.CommandsAlwaysEnd : Prop := ∀ (i : Instr) (s : State), ∃ t, exec i s = .next t

/-- R22: the outcome of a command and what it writes are a function of what the table lists as read, and it changes
nothing the table does not list as written, and those elements only when it succeeds. -/
def Obligations.CommandReadsAndWrites : Prop :=
  ∀ (i : Instr) (s u : State), s.sizeOk → s.memSize = u.memSize → s.fatal = u.fatal → SameReads i s u →
    ∃ s' u', exec i s = .next s' ∧ exec i u = .next u' ∧ s'.err = u'.err ∧ (s'.err = 0 → SameWrites i s' u')
      ∧ (s'.err = 0 → WritesOnly i s s' ∧ WritesOnly i u u')
      ∧ (s'.err ≠ 0 → s' = { s with status := s'.status } ∧ u' = { u with status := u'.status })

/-! ### Reset and the invariants (10_state.md, 70_reset_and_hazards.md) -/

/-- R23: the value of every register after reset; `MEM` has no reset value, at power-on its Bytes are free, and
`HostReset` leaves them. -/
def Obligations.ResetValues : Prop :=
  (∀ (r c : Fin 4), State.reset.st[r][c] = 0) ∧ (∀ i : Fin 44, State.reset.rk[i] = 0)
    ∧ State.reset.a = 0 ∧ State.reset.b = 0 ∧ State.reset.r = 0 ∧ State.reset.rklen = 0
    ∧ State.reset.kptr = 0 ∧ State.reset.klen = 0 ∧ State.reset.iptr = 0 ∧ State.reset.ilen = 0
    ∧ State.reset.sptr = 0 ∧ State.reset.slen = 0 ∧ State.reset.dptr = 0 ∧ State.reset.dlen = 0
    ∧ State.reset.err = 0 ∧ State.reset.fatal = false
    ∧ (∀ a, State.reset.byteAt a = Config.powerOnByte a)
    ∧ ∀ (s t : State) (rest : List HostOp), s.pending = .reset :: rest → step s = .next t →
        (∀ a, t.byteAt a = s.byteAt a)

/-- `HostReset` puts every register at its reset value and leaves `MEM`, and nothing else clears `FATAL` (R170). That it
leaves `MEMSIZE` and what the host still asks for is the model's reading (notes/assumptions/7.md, DEDUCED, and the list of
notes/assumptions/3.md, DESIGN CHOICE). -/
def Obligations.HostResetAlone : Prop :=
  (∀ (s : State) (rest : List HostOp), s.pending = .reset :: rest →
    step s = .next { State.reset with mem := s.mem, memSize := s.memSize, pending := rest })
    ∧ ∀ s t : State, s.fatal = true → step s = .next t → t.fatal = false → ∃ rest, s.pending = .reset :: rest

/-- The invariant holds at reset. -/
def Obligations.InvariantAtReset : Prop := State.reset.Inv

/-- Every step keeps the canonical form of `MEM` and its bounds. -/
def Obligations.MemoryFormPreserved : Prop := ∀ s t : State, s.memOk → step s = .next t → t.memOk

/-- R16: every step keeps `ERR` at 0 to 6 and bits 31:5 at 0, and the host reads them so. -/
def Obligations.StatusStaysLegal : Prop :=
  ∀ s t : State, statusLegal s.status → step s = .next t → statusLegal t.status

/-- R143: a command whose body ends in `InvariantFault` changes `STATUS` only, with `ERR` 5 and `FATAL` 1; it is
unreachable: no step sets `FATAL`; nothing but reset clears it. -/
def Obligations.FatalNeverSet : Prop :=
  (∀ (s : State) (body : State → Except CommandError State), s.fatal = false → body s = .error .invariantFault →
    runCommand body s = .next { s with status := 0x15 })
    ∧ (∀ s t : State, s.fatal = false → step s = .next t → t.fatal = false)
    ∧ ∀ s t : State, s.fatal = true → step s = .next t → t.fatal = false → ∃ rest, s.pending = .reset :: rest

/-- No step changes the parameter `MEMSIZE` (R21). -/
def Obligations.MemSizeFixed : Prop := ∀ s t : State, step s = .next t → t.memSize = s.memSize

/-! ### GF(2^8) arithmetic (40_gf_arithmetic.md) -/

/-- R64: `GF_DBL`. -/
def Obligations.GfDblResult : Prop :=
  ∀ s : State, Encodes 0x00000010 .gfDbl ∧ RefusedWhenFatal .gfDbl s
    ∧ (s.fatal = false →
      exec .gfDbl s
        = .next { s with r := if s.a.getLsbD 7 then (s.a <<< 1) ^^^ 0x1B else s.a <<< 1, status := 0 })

/-- R65: `GF_MUL` is the XOR, over the set bits `i` of `B`, of `A` doubled `i` times, whichever operand is in which
register. -/
def Obligations.GfMulResult : Prop :=
  ∀ s : State, Encodes 0x00000011 .gfMul ∧ RefusedWhenFatal .gfMul s
    ∧ (s.fatal = false →
      exec .gfMul s = .next { s with r := fieldProduct s.a s.b, status := 0 }
      ∧ exec .gfMul { s with a := s.b, b := s.a }
          = .next { s with a := s.b, b := s.a, r := fieldProduct s.a s.b, status := 0 })

/-- R69: the laws of `multiply`. -/
def Obligations.MultiplyFieldLaws : Prop :=
  ∀ a b c : Byte, multiply a b = multiply b a ∧ multiply (multiply a b) c = multiply a (multiply b c)
    ∧ multiply a (b ^^^ c) = multiply a b ^^^ multiply a c ∧ (multiply a b = 0 → a = 0 ∨ b = 0)
    ∧ (a ≠ 0 → power a 255 = 1)

/-- R62: `power(a, e)` is `a` multiplied by itself `e` times, for every natural `e`. -/
def Obligations.PowerIsRepeatedProduct : Prop :=
  ∀ (a : Byte) (e : Nat), power a 0 = 1 ∧ power a (e + 1) = multiply a (power a e) ∧ (1 ≤ e → power 0 e = 0)
    ∧ power 1 e = 1 ∧ power a 1 = a ∧ (a ≠ 0 → power a 255 = 1)

/-- R66: `GF_POW` multiplies 1 by `A` as often as `B` says; exponents count modulo 255. -/
def Obligations.GfPowResult : Prop :=
  ∀ s : State, Encodes 0x00000012 .gfPow ∧ RefusedWhenFatal .gfPow s
    ∧ (s.fatal = false → exec .gfPow s = .next { s with r := (multiply s.a)^[s.b.toNat] 1, status := 0 })
    ∧ ∀ e : Nat, s.a ≠ 0 → 1 ≤ e → power s.a e = power s.a (e % 255)

/-- R63, R67: `GF_INV` gives the field inverse, and 0 for 0. -/
def Obligations.GfInvResult : Prop :=
  ∀ s : State, Encodes 0x00000013 .gfInv ∧ RefusedWhenFatal .gfInv s
    ∧ (s.fatal = false → ∃ v, exec .gfInv s = .next { s with r := v, status := 0 } ∧ v = power s.a 254
      ∧ (s.a = 0 → v = 0) ∧ (s.a ≠ 0 → multiply s.a v = 1) ∧ inverse v = s.a)

/-! ### S-box (41_sbox.md) -/

/-- R70, R73: `SBOX_FWD` is the affine transform of the field inverse. -/
def Obligations.SboxFwdResult : Prop :=
  ∀ s : State, Encodes 0x00000020 .sboxFwd ∧ RefusedWhenFatal .sboxFwd s
    ∧ (s.fatal = false → ∃ y, y = power s.a 254
      ∧ exec .sboxFwd s = .next { s with
          r := y ^^^ y.rotateLeft 1 ^^^ y.rotateLeft 2 ^^^ y.rotateLeft 3 ^^^ y.rotateLeft 4 ^^^ 0x63, status := 0 })

/-- R72: `forward_sbox` is a bijection without fixed or opposite fixed point. -/
def Obligations.ForwardSboxBijective : Prop :=
  Function.Bijective forwardSbox ∧ (∀ x, forwardSbox x ≠ x) ∧ ∀ x, forwardSbox x ≠ x ^^^ 0xFF

/-- R71, R74: `SBOX_INV` gives the one Byte whose `forward_sbox` is `A`. What a search without a match would do (it
cannot happen, R72) is in `FatalNeverSet`. -/
def Obligations.SboxInvResult : Prop :=
  ∀ s : State, Encodes 0x00000021 .sboxInv ∧ RefusedWhenFatal .sboxInv s
    ∧ (s.fatal = false →
      ∃ v, exec .sboxInv s = .next { s with r := v, status := 0 } ∧ forwardSbox v = s.a
        ∧ ∀ u, forwardSbox u = s.a → u = v)
    ∧ ∀ x, inverseSbox (forwardSbox x) = .ok x

/-! ### State transforms (42_state_transforms.md) -/

/-- R80, R91: `ST_LOAD`. -/
def Obligations.StLoadResult : Prop :=
  ∀ s : State, Encodes 0x00000030 .stLoad ∧ RefusedWhenFatal .stLoad s
    ∧ (s.fatal = false →
      (s.slen ≠ 16 → EndsInError .stLoad s 2)
      ∧ (s.slen = 16 → s.memSize < s.sptr.toNat + 16 → EndsInError .stLoad s 4)
      ∧ (s.slen = 16 → s.sptr.toNat + 16 ≤ s.memSize →
          ∃ g, exec .stLoad s = .next { s with st := g, status := 0 }
            ∧ ∀ r c : Fin 4, g[r][c] = s.byteAt (s.sptr.toNat + (r.val + 4 * c.val))))

/-- R81, R92: `ST_STORE`. -/
def Obligations.StStoreResult : Prop :=
  ∀ s : State, Encodes 0x00000031 .stStore ∧ RefusedWhenFatal .stStore s
    ∧ (s.fatal = false →
      (s.memSize < s.dptr.toNat + 16 → EndsInError .stStore s 4)
      ∧ (s.dptr.toNat + 16 ≤ s.memSize →
          ∃ t out, exec .stStore s = .next t ∧ StoredAt s t s.dptr.toNat out ∧ out.length = 16
            ∧ ∀ r c : Fin 4, t.byteAt (s.dptr.toNat + (r.val + 4 * c.val)) = s.st[r][c]))

/-- R82, R93: `SUB_BYTES`. -/
def Obligations.SubBytesResult : Prop :=
  ∀ s : State, Encodes 0x00000032 .subBytes ∧ RefusedWhenFatal .subBytes s
    ∧ (s.fatal = false → ∃ g, exec .subBytes s = .next { s with st := g, status := 0 }
      ∧ ∀ r c : Fin 4, g[r][c] = forwardSbox s.st[r][c])

/-- R83, R94: `INV_SUB_BYTES`; the two substitutions undo each other. -/
def Obligations.InvSubBytesResult : Prop :=
  ∀ s : State, Encodes 0x00000033 .invSubBytes ∧ RefusedWhenFatal .invSubBytes s
    ∧ (s.fatal = false →
      ∃ g, exec .invSubBytes s = .next { s with st := g, status := 0 }
        ∧ (∀ r c : Fin 4, inverseSbox s.st[r][c] = .ok g[r][c]) ∧ subBytes g = s.st)
    ∧ invSubBytes (subBytes s.st) = .ok s.st

/-- R84, R95: `SHIFT_ROWS`; four in a row restore the grid. -/
def Obligations.ShiftRowsResult : Prop :=
  ∀ s : State, Encodes 0x00000034 .shiftRows ∧ RefusedWhenFatal .shiftRows s
    ∧ (s.fatal = false →
      (∃ g, exec .shiftRows s = .next { s with st := g, status := 0 } ∧ g[0] = s.st[0]
        ∧ g[1] = #v[s.st[1][1], s.st[1][2], s.st[1][3], s.st[1][0]]
        ∧ g[2] = #v[s.st[2][2], s.st[2][3], s.st[2][0], s.st[2][1]]
        ∧ g[3] = #v[s.st[3][3], s.st[3][0], s.st[3][1], s.st[3][2]])
      ∧ runCommands [.shiftRows, .shiftRows, .shiftRows, .shiftRows] s = .next { s with status := 0 })

/-- R85, R96: `INV_SHIFT_ROWS`; the two shifts undo each other. -/
def Obligations.InvShiftRowsResult : Prop :=
  ∀ s : State, Encodes 0x00000035 .invShiftRows ∧ RefusedWhenFatal .invShiftRows s
    ∧ (s.fatal = false →
      (∃ g, exec .invShiftRows s = .next { s with st := g, status := 0 } ∧ g[0] = s.st[0]
        ∧ g[1] = #v[s.st[1][3], s.st[1][0], s.st[1][1], s.st[1][2]]
        ∧ g[2] = #v[s.st[2][2], s.st[2][3], s.st[2][0], s.st[2][1]]
        ∧ g[3] = #v[s.st[3][1], s.st[3][2], s.st[3][3], s.st[3][0]])
      ∧ runCommands [.shiftRows, .invShiftRows] s = .next { s with status := 0 }
      ∧ runCommands [.invShiftRows, .shiftRows] s = .next { s with status := 0 })

/-- R86, R97: `MIX_COLUMNS` is the product of every column with the matrix written out in R86. -/
def Obligations.MixColumnsResult : Prop :=
  ∀ s : State, Encodes 0x00000036 .mixColumns ∧ RefusedWhenFatal .mixColumns s
    ∧ (s.fatal = false → ∃ g, exec .mixColumns s = .next { s with st := g, status := 0 }
      ∧ ∀ i c : Fin 4, g[i][c] = matrixTimesColumn mixMatrix s.st i c)

/-- R87, R98: `INV_MIX_COLUMNS` is the product with the matrix written out in R87; the two undo each other. -/
def Obligations.InvMixColumnsResult : Prop :=
  ∀ s : State, Encodes 0x00000037 .invMixColumns ∧ RefusedWhenFatal .invMixColumns s
    ∧ (s.fatal = false →
      (∃ g, exec .invMixColumns s = .next { s with st := g, status := 0 }
        ∧ ∀ i c : Fin 4, g[i][c] = matrixTimesColumn invMixMatrix s.st i c)
      ∧ runCommands [.mixColumns, .invMixColumns] s = .next { s with status := 0 }
      ∧ runCommands [.invMixColumns, .mixColumns] s = .next { s with status := 0 })

/-- R90, R99: `ADD_ROUND_KEY r`; a round key above 10 has no command word; the same command twice restores the grid. -/
def Obligations.AddRoundKeyResult : Prop :=
  ∀ (s : State) (r : BitVec 4),
    (10 < r.toNat → ∀ w, decode w ≠ .ok (.addRoundKey r))
    ∧ (r.toNat ≤ 10 →
      Encodes (0x00000038 ||| (r.setWidth 32 <<< 8)) (.addRoundKey r) ∧ RefusedWhenFatal (.addRoundKey r) s
      ∧ (s.fatal = false →
        (s.rklen.toNat < 4 * r.toNat + 4 → EndsInError (.addRoundKey r) s 2)
        ∧ (4 * r.toNat + 4 ≤ s.rklen.toNat →
          (∃ g, exec (.addRoundKey r) s = .next { s with st := g, status := 0 }
            ∧ ∀ (i c : Fin 4) (h : 4 * r.toNat + c.val < 44),
                g[i][c] = s.st[i][c] ^^^ (s.rk[4 * r.toNat + c.val] >>> (24 - 8 * i.val)).setWidth 8)
          ∧ runCommands [.addRoundKey r, .addRoundKey r] s = .next { s with status := 0 })))

/-! ### Key schedule (43_key_schedule.md) -/

/-- R102, R104, R106: `KEY_EXPAND` fills `RK` by the recurrence of the expansion; where `i mod 4 = 0` the four Bytes of
the rotated Word go each through `forward_sbox` and are packed byte 0 first. -/
def Obligations.KeyExpandResult : Prop :=
  ∀ s : State, Encodes 0x00000040 .keyExpand ∧ RefusedWhenFatal .keyExpand s
    ∧ (s.fatal = false →
      (s.klen ≠ 16 → EndsInError .keyExpand s 2)
      ∧ (s.klen = 16 → s.memSize < s.kptr.toNat + 16 → EndsInError .keyExpand s 4)
      ∧ (s.klen = 16 → s.kptr.toNat + 16 ≤ s.memSize →
          ∃ w : Schedule, exec .keyExpand s = .next { s with rk := w, rklen := 44, status := 0 }
            ∧ (∀ (i : Nat) (h : i < 4), w[i]
                = s.byteAt (s.kptr.toNat + 4 * i) ++ s.byteAt (s.kptr.toNat + (4 * i + 1))
                  ++ s.byteAt (s.kptr.toNat + (4 * i + 2)) ++ s.byteAt (s.kptr.toNat + (4 * i + 3)))
            ∧ ∀ (i : Nat) (h4 : 4 ≤ i) (h : i < 44),
                (i % 4 ≠ 0 → w[i] = w[i - 4] ^^^ w[i - 1])
                ∧ (i % 4 = 0 → ∀ x : Word, x = w[i - 1].rotateLeft 8 →
                    w[i] = w[i - 4]
                      ^^^ (forwardSbox (x.extractLsb' 24 8) ++ forwardSbox (x.extractLsb' 16 8)
                        ++ forwardSbox (x.extractLsb' 8 8) ++ forwardSbox (x.extractLsb' 0 8))
                      ^^^ ((double^[i / 4 - 1] 1).setWidth 32 <<< 24))))

/-- R107: different keys give different schedules, and any one round key determines the whole schedule. -/
def Obligations.RoundKeyDeterminesSchedule : Prop :=
  ∀ k k' : List Byte, k.length = 16 → k'.length = 16 →
    (expandKey k = expandKey k' → k = k')
      ∧ ∀ r, r ≤ 10 → roundKey (expandKey k) r = roundKey (expandKey k') r → expandKey k = expandKey k'

/-! ### Block cipher (44_block_cipher.md) -/

/-- R110, R113: `BLK_ENC` writes the ten rounds' result, with its length and range errors. -/
def Obligations.BlkEncResult : Prop :=
  ∀ s : State, Encodes 0x00000050 .blkEnc ∧ RefusedWhenFatal .blkEnc s
    ∧ (s.fatal = false →
      (s.slen ≠ 16 ∨ s.rklen ≠ 44 → EndsInError .blkEnc s 2)
      ∧ (s.slen = 16 → s.rklen = 44 →
        (s.memSize < s.sptr.toNat + 16 ∨ s.memSize < s.dptr.toNat + 16 → EndsInError .blkEnc s 4)
        ∧ (s.sptr.toNat + 16 ≤ s.memSize → s.dptr.toNat + 16 ≤ s.memSize →
            ∃ t out, exec .blkEnc s = .next t ∧ StoredAt s t s.dptr.toNat out ∧ out.length = 16
              ∧ out = stateToBytes (addRoundKey (shiftRows (subBytes
                  ([1, 2, 3, 4, 5, 6, 7, 8, 9].foldl
                    (fun g r => addRoundKey (mixColumns (shiftRows (subBytes g))) (roundKey s.rk r))
                    (addRoundKey (bytesToState (s.memRead s.sptr.toNat 16)) (roundKey s.rk 0)))))
                  (roundKey s.rk 10)))))

/-- R114: `BLK_DEC` writes the block whose encryption under `RK` is the source block, with its errors. -/
def Obligations.BlkDecResult : Prop :=
  ∀ s : State, Encodes 0x00000051 .blkDec ∧ RefusedWhenFatal .blkDec s
    ∧ (s.fatal = false →
      (s.slen ≠ 16 ∨ s.rklen ≠ 44 → EndsInError .blkDec s 2)
      ∧ (s.slen = 16 → s.rklen = 44 →
        (s.memSize < s.sptr.toNat + 16 ∨ s.memSize < s.dptr.toNat + 16 → EndsInError .blkDec s 4)
        ∧ (s.sptr.toNat + 16 ≤ s.memSize → s.dptr.toNat + 16 ≤ s.memSize →
            ∃ t out, exec .blkDec s = .next t ∧ StoredAt s t s.dptr.toNat out ∧ out.length = 16
              ∧ decryptBlock (s.memRead s.sptr.toNat 16) s.rk = .ok out
              ∧ encryptBlock out s.rk = s.memRead s.sptr.toNat 16)))

/-- R112: decryption undoes encryption and encryption undoes decryption, for every block and every schedule of 44
Words. -/
def Obligations.BlockRoundTrip : Prop :=
  ∀ (b : List Byte) (w : Schedule), IsBlock b →
    decryptBlock (encryptBlock b w) w = .ok b
      ∧ ∃ d, IsBlock d ∧ decryptBlock b w = .ok d ∧ encryptBlock d w = b

/-- R116: one block command equals its 42 primitive commands, but for the grid they leave. -/
def Obligations.BlockCommandsEqualPrimitives : Prop :=
  ∀ s : State, s.fatal = false → s.slen = 16 → s.rklen = 44 → s.sptr.toNat + 16 ≤ s.memSize →
    s.dptr.toNat + 16 ≤ s.memSize →
      (∃ t u, exec .blkEnc s = .next t ∧ runCommands encryptionByPrimitives s = .next u
        ∧ u = { t with st := bytesToState (t.memRead s.dptr.toNat 16) } ∧ t.dlen = 16)
      ∧ (∃ t u, exec .blkDec s = .next t ∧ runCommands decryptionByPrimitives s = .next u
        ∧ u = { t with st := bytesToState (t.memRead s.dptr.toNat 16) } ∧ t.dlen = 16)

/-- R115: the block and chaining commands neither read nor write `ST`. -/
def Obligations.BlockCommandsKeepGrid : Prop :=
  ∀ (i : Instr) (s t : State) (g : Grid), i = .blkEnc ∨ i = .blkDec ∨ (∃ np, i = .cbcEnc np) ∨ (∃ np, i = .cbcDec np) →
    exec i s = .next t → t.st = s.st ∧ exec i { s with st := g } = .next { t with st := g }

/-! ### Padding and chaining (45_padding_cbc.md) -/

/-- R126: `PKCS7_PAD`. -/
def Obligations.Pkcs7PadResult : Prop :=
  ∀ s : State, Encodes 0x00000060 .pkcs7Pad ∧ RefusedWhenFatal .pkcs7Pad s
    ∧ (s.fatal = false → ∀ n, n = 16 - s.slen.toNat % 16 →
      (s.memSize < s.sptr.toNat + s.slen.toNat ∨ s.memSize < s.dptr.toNat + (s.slen.toNat + n)
        → EndsInError .pkcs7Pad s 4)
      ∧ (s.sptr.toNat + s.slen.toNat ≤ s.memSize → s.dptr.toNat + (s.slen.toNat + n) ≤ s.memSize →
          ∃ t, exec .pkcs7Pad s = .next t
            ∧ StoredAt s t s.dptr.toNat
                (s.memRead s.sptr.toNat s.slen.toNat ++ List.replicate n (BitVec.ofNat 8 n))))

/-- R121, R127: `PKCS7_UNPAD` strips a well-formed trailer of `n` Bytes and ends in `PaddingError` exactly when there is
none. -/
def Obligations.Pkcs7UnpadResult : Prop :=
  ∀ s : State, Encodes 0x00000061 .pkcs7Unpad ∧ RefusedWhenFatal .pkcs7Unpad s
    ∧ (s.fatal = false →
      (s.memSize < s.sptr.toNat + s.slen.toNat → EndsInError .pkcs7Unpad s 4)
      ∧ (s.sptr.toNat + s.slen.toNat ≤ s.memSize →
        (∀ n : Nat, 1 ≤ n → n ≤ 16 → n ≤ s.slen.toNat → s.slen.toNat % 16 = 0 →
          (∀ k, s.slen.toNat - n ≤ k → k < s.slen.toNat → s.byteAt (s.sptr.toNat + k) = BitVec.ofNat 8 n) →
            (s.memSize < s.dptr.toNat + (s.slen.toNat - n) → EndsInError .pkcs7Unpad s 4)
            ∧ (s.dptr.toNat + (s.slen.toNat - n) ≤ s.memSize →
                ∃ t, exec .pkcs7Unpad s = .next t
                  ∧ StoredAt s t s.dptr.toNat (s.memRead s.sptr.toNat (s.slen.toNat - n))))
        ∧ ((¬ ∃ n : Nat, 1 ≤ n ∧ n ≤ 16 ∧ n ≤ s.slen.toNat ∧ s.slen.toNat % 16 = 0
            ∧ ∀ k, s.slen.toNat - n ≤ k → k < s.slen.toNat → s.byteAt (s.sptr.toNat + k) = BitVec.ofNat 8 n)
          → EndsInError .pkcs7Unpad s 3)))

/-- R130: unpadding undoes padding, for every sequence and every block size from 1 to 255; the converse where unpadding
succeeds. -/
def Obligations.PaddingRoundTrip : Prop :=
  ∀ (d : List Byte) (bs : Nat), 1 ≤ bs → bs ≤ 255 →
    pkcs7Unpad (pkcs7Pad d bs) bs = .ok d ∧ (pkcs7Pad d bs).length % bs = 0
      ∧ d.length < (pkcs7Pad d bs).length
      ∧ ∀ d', pkcs7Unpad d bs = .ok d' → pkcs7Pad d' bs = d

/-- R123, R128: `CBC_ENC` writes, block by block, the encryption of the plaintext block XOR the chain value, with its
errors. -/
def Obligations.CbcEncResult : Prop :=
  ∀ (s : State) (np : Bool),
    Encodes (if np then 0x00001062 else 0x00000062) (.cbcEnc np) ∧ RefusedWhenFatal (.cbcEnc np) s
    ∧ (s.fatal = false →
      (lengthTest (.cbcEnc np) s → EndsInError (.cbcEnc np) s 2)
      ∧ (¬ lengthTest (.cbcEnc np) s →
        (sourceRangeTest (.cbcEnc np) s → EndsInError (.cbcEnc np) s 4)
        ∧ (¬ sourceRangeTest (.cbcEnc np) s → ∀ p n : List Byte,
          n = List.replicate (16 - s.slen.toNat % 16) (BitVec.ofNat 8 (16 - s.slen.toNat % 16)) →
          p = (if np then s.memRead s.sptr.toNat s.slen.toNat else s.memRead s.sptr.toNat s.slen.toNat ++ n) →
            (s.memSize < s.dptr.toNat + p.length → EndsInError (.cbcEnc np) s 4)
            ∧ (s.dptr.toNat + p.length ≤ s.memSize →
                ∃ t out, exec (.cbcEnc np) s = .next t ∧ StoredAt s t s.dptr.toNat out ∧ out.length = p.length
                  ∧ ∀ j, 16 * j < p.length → blockOf out j
                      = encryptBlock (xorBlock (blockOf p j) (chainOf (s.memRead s.iptr.toNat 16) out j))
                          (expandKey (s.memRead s.kptr.toNat 16))))))

/-- R124, R129: `CBC_DEC` recovers each plaintext block as the decryption of the ciphertext block XOR the chain value,
then strips the padding unless `np`, with its errors. -/
def Obligations.CbcDecResult : Prop :=
  ∀ (s : State) (np : Bool),
    Encodes (if np then 0x00001063 else 0x00000063) (.cbcDec np) ∧ RefusedWhenFatal (.cbcDec np) s
    ∧ (s.fatal = false →
      (lengthTest (.cbcDec np) s → EndsInError (.cbcDec np) s 2)
      ∧ (¬ lengthTest (.cbcDec np) s →
        (sourceRangeTest (.cbcDec np) s → EndsInError (.cbcDec np) s 4)
        ∧ (¬ sourceRangeTest (.cbcDec np) s → ∃ p : List Byte, p.length = s.slen.toNat
          ∧ (∀ j, 16 * j < s.slen.toNat →
              ∃ d, decryptBlock (s.memRead (s.sptr.toNat + 16 * j) 16) (expandKey (s.memRead s.kptr.toNat 16)) = .ok d
                ∧ blockOf p j
                    = xorBlock d (chainOf (s.memRead s.iptr.toNat 16) (s.memRead s.sptr.toNat s.slen.toNat) j))
          ∧ (∀ e, np = false → pkcs7Unpad p 16 = .error e → EndsInError (.cbcDec np) s 3)
          ∧ ∀ out, (if np then out = p else pkcs7Unpad p 16 = .ok out) →
              (s.memSize < s.dptr.toNat + out.length → EndsInError (.cbcDec np) s 4)
              ∧ (s.dptr.toNat + out.length ≤ s.memSize →
                  ∃ t, exec (.cbcDec np) s = .next t ∧ StoredAt s t s.dptr.toNat out))))

/-- R131: decryption undoes encryption, padded for every plaintext, unpadded for every positive multiple of 16, and
unpadded encryption undoes unpadded decryption. -/
def Obligations.CbcRoundTrip : Prop :=
  ∀ key iv : List Byte, key.length = 16 → iv.length = 16 →
    (∀ pt, ∃ ct, cbcEncrypt key iv pt false = .ok ct ∧ cbcDecrypt key iv ct false = .ok pt)
      ∧ ∀ x, 0 < x.length → x.length % 16 = 0 →
          (∃ ct, cbcEncrypt key iv x true = .ok ct ∧ cbcDecrypt key iv ct true = .ok x)
          ∧ ∃ pt, cbcDecrypt key iv x true = .ok pt ∧ cbcEncrypt key iv pt true = .ok x

/-- R125: what a change `d` of ciphertext block `i` does to the decrypted blocks. -/
def Obligations.ChangedCiphertextBlock : Prop :=
  ∀ (key iv ct ct' d : List Byte) (i : Nat), key.length = 16 → iv.length = 16 → ct.length % 16 = 0 →
    16 * i < ct.length → d.length = 16 → ct'.length = ct.length → blockOf ct' i = xorBlock (blockOf ct i) d →
    (∀ j, j ≠ i → blockOf ct' j = blockOf ct j) →
      ∃ p p', cbcDecrypt key iv ct true = .ok p ∧ cbcDecrypt key iv ct' true = .ok p' ∧ p'.length = p.length
        ∧ (∀ j, j ≠ i → j ≠ i + 1 → blockOf p' j = blockOf p j)
        ∧ (16 * (i + 1) < ct.length → blockOf p' (i + 1) = xorBlock (blockOf p (i + 1)) d)
        ∧ (∃ e, decryptBlock (xorBlock (blockOf ct i) d) (expandKey key) = .ok e
            ∧ blockOf p' i = xorBlock e (chainOf iv ct i))
        ∧ (d ≠ List.replicate 16 0 → blockOf p' i ≠ blockOf p i)

/-- What dropping ciphertext block `j` does to the decrypted blocks (R132 a). -/
def Obligations.DroppedCiphertextBlock : Prop :=
  ∀ (key iv ct : List Byte) (j : Nat), key.length = 16 → iv.length = 16 → ct.length % 16 = 0 →
    16 * j < ct.length → 16 < ct.length →
      ∃ p p', cbcDecrypt key iv ct true = .ok p
        ∧ cbcDecrypt key iv (ct.take (16 * j) ++ ct.drop (16 * (j + 1))) true = .ok p'
        ∧ (∀ k, k < j → blockOf p' k = blockOf p k)
        ∧ (16 * (j + 1) < ct.length →
            blockOf p' j = xorBlock (xorBlock (blockOf p (j + 1)) (blockOf ct j)) (chainOf iv ct j))
        ∧ ∀ k, j < k → blockOf p' k = blockOf p (k + 1)

/-- Splitting a message over two unpadded encryptions is transparent when the second starts its chain from the last
ciphertext block of the first (R177). -/
def Obligations.ChainingSplits : Prop :=
  ∀ key iv p q : List Byte, key.length = 16 → iv.length = 16 → 0 < p.length → p.length % 16 = 0 → 0 < q.length →
    q.length % 16 = 0 →
      ∃ c d, cbcEncrypt key iv p true = .ok c ∧ cbcEncrypt key (blockOf c (p.length / 16 - 1)) q true = .ok d
        ∧ cbcEncrypt key iv (p ++ q) true = .ok (c ++ d)
end

