-- ==== Sys2Proof/Laws/Grid.lean ====
section
/-! SUPPORT. Sys2Proof/Laws/Grid.lean: reading a grid that was built from a function, and equality of grids. -/

namespace Sys2Proof.Machine

theorem Grid.getElem_ofFn (f : Fin 4 → Fin 4 → Byte) (r c : Fin 4) : (Grid.ofFn f)[r][c] = f r c := by
  simp [Grid.ofFn]

/-- Two grids with the same entries are equal. -/
theorem Grid.ext_entries {g h : Grid} (hgh : ∀ r c : Fin 4, g[r][c] = h[r][c]) : g = h := by
  refine Vector.ext (fun r hr => Vector.ext (fun c hc => ?_))
  exact hgh ⟨r, hr⟩ ⟨c, hc⟩

/-- Every grid is built from its entries. -/
theorem Grid.ofFn_entries (g : Grid) : Grid.ofFn (fun r c => g[r][c]) = g :=
  Grid.ext_entries (fun r c => Grid.getElem_ofFn _ r c)

@[simp] theorem length_stateToBytes (g : Grid) : (stateToBytes g).length = 16 := by
  simp [stateToBytes]

/-- Byte `k` of a grid is row `k mod 4`, column `k div 4` (42_state_transforms.md R81). -/
theorem getElem_stateToBytes (g : Grid) (k : Nat) (h : k < (stateToBytes g).length) :
    (stateToBytes g)[k] = g[(⟨k % 4, by omega⟩ : Fin 4)][(⟨k / 4, by
      rw [length_stateToBytes] at h; omega⟩ : Fin 4)] := by
  simp [stateToBytes]

/-- Entry `r`, `c` of a block's grid is Byte `r + 4c` (42_state_transforms.md R80). -/
theorem getElem_bytesToState (b : List Byte) (r c : Fin 4) :
    (bytesToState b)[r][c] = b.getD (r.val + 4 * c.val) 0 := by
  unfold bytesToState
  exact Grid.getElem_ofFn _ r c

/-- The two conversions undo each other on grids (R81). -/
theorem bytesToState_stateToBytes (g : Grid) : bytesToState (stateToBytes g) = g := by
  refine Grid.ext_entries (fun r c => ?_)
  have hk : r.val + 4 * c.val < (stateToBytes g).length := by rw [length_stateToBytes]; omega
  rw [getElem_bytesToState, List.getD_eq_getElem _ _ hk, getElem_stateToBytes]
  congr 2
  · congr 1
    omega
  · omega

/-- The two conversions undo each other on blocks (R81). -/
theorem stateToBytes_bytesToState {b : List Byte} (h : b.length = 16) : stateToBytes (bytesToState b) = b := by
  refine List.ext_getElem (by rw [length_stateToBytes, h]) (fun k h1 h2 => ?_)
  rw [getElem_stateToBytes, getElem_bytesToState]
  have : k % 4 + 4 * (k / 4) = k := by omega
  simp only [this]
  exact List.getD_eq_getElem _ _ h2

theorem getElem_roundKey (w : Schedule) (r : Nat) (c : Fin 4) :
    (roundKey w r)[c] = Schedule.word w (4 * r + c.val) := by
  simp [roundKey]

end Sys2Proof.Machine
end

