-- ==== Sys2Proof/Laws/Chain.lean ====
section
/-! SUPPORT. Sys2Proof/Laws/Chain.lean: lengths of what the key schedule, the block cipher and the chain make,
`subWord` by its Bytes, and running a list of commands. -/

namespace Sys2Proof.Machine

@[simp] theorem length_expandWords (k : List Byte) (n : Nat) : (expandWords k n).length = n := by
  induction n with
  | zero => rfl
  | succ n ih => simp [expandWords, ih]

/-- `subWord` sends each Byte of its Word through the S-box, byte 0 first (43_key_schedule.md R102). -/
theorem subWord_bytes (x : Word) : subWord x
    = forwardSbox (x.extractLsb' 24 8) ++ forwardSbox (x.extractLsb' 16 8) ++ forwardSbox (x.extractLsb' 8 8)
      ++ forwardSbox (x.extractLsb' 0 8) := by
  simp [subWord, pack, byteOf]

@[simp] theorem length_encryptBlock (b : List Byte) (w : Schedule) : (encryptBlock b w).length = 16 := by
  simp [encryptBlock]

@[simp] theorem length_encryptChain (w : Schedule) (n : Nat) (chain p : List Byte) :
    (encryptChain w n chain p).length = 16 * n := by
  induction n generalizing chain p with
  | zero => rfl
  | succ n ih => simp [encryptChain, ih]; omega

theorem length_xorBlock (x y : List Byte) : (xorBlock x y).length = min x.length y.length := by
  simp [xorBlock]

theorem length_pkcs7Pad (d : List Byte) (bs : Nat) : (pkcs7Pad d bs).length = d.length + (bs - d.length % bs) := by
  simp [pkcs7Pad]

/-- A first command that ends in `t` leaves the rest of the list to run from `t`. -/
theorem runCommands_cons {i : Instr} {s t : State} (h : exec i s = .next t) (rest : List Instr) :
    runCommands (i :: rest) s = runCommands rest t := by
  simp only [runCommands, h]

/-- A list of commands that ends in `t` leaves what follows to run from `t`. -/
theorem runCommands_append {l : List Instr} {s t : State} (h : runCommands l s = .next t) (rest : List Instr) :
    runCommands (l ++ rest) s = runCommands rest t := by
  induction l generalizing s with
  | nil =>
    cases h
    rfl
  | cons i l ih =>
    rw [List.cons_append]
    cases he : exec i s with
    | next u =>
      rw [runCommands_cons he] at h ⊢
      exact ih h
    | fault f => simp [runCommands, he] at h
    | refused f => simp [runCommands, he] at h

end Sys2Proof.Machine
end

