-- ==== Sys2Proof/Laws/Memory.lean ====
section
/-! SUPPORT. Sys2Proof/Laws/Memory.lean: read after write, and that every write keeps the canonical form. -/

namespace Sys2Proof.Machine

@[simp] theorem Memory.lookup_write_same (m : Memory) (a : Nat) (b : Byte) :
    (Memory.write m a b).lookup a = some b := by
  induction m with
  | nil => simp [Memory.write, Memory.lookup]
  | cons cell m ih =>
    obtain ⟨k, c⟩ := cell
    simp only [Memory.write]
    split
    · simp [Memory.lookup]
    · split
      · simp [Memory.lookup]
      · rename_i h1 h2
        simp only [Memory.lookup, ih]
        rw [if_neg (fun h => h2 h.symm)]

@[simp] theorem Memory.lookup_write_other (m : Memory) {a x : Nat} (b : Byte) (h : x ≠ a) :
    (Memory.write m a b).lookup x = m.lookup x := by
  induction m with
  | nil => simp [Memory.write, Memory.lookup, Ne.symm h]
  | cons cell m ih =>
    obtain ⟨k, c⟩ := cell
    simp only [Memory.write]
    split
    · simp [Memory.lookup, Ne.symm h]
    · split
      · rename_i h1 h2
        subst h2
        simp [Memory.lookup, Ne.symm h]
      · simp [Memory.lookup, ih]

/-- After a write of a byte sequence an address inside it holds its Byte of the sequence, any other what it held. -/
theorem Memory.lookup_writeBytes (m : Memory) (a x : Nat) (bytes : List Byte) :
    (Memory.writeBytes m a bytes).lookup x
      = if a ≤ x ∧ x < a + bytes.length then bytes[x - a]? else m.lookup x := by
  induction bytes generalizing m a with
  | nil =>
    rw [Memory.writeBytes, if_neg]
    simp only [List.length_nil]
    omega
  | cons b bs ih =>
    rw [Memory.writeBytes, ih]
    by_cases hx : x = a
    · subst hx
      rw [if_neg (by omega), Memory.lookup_write_same, if_pos (by simp)]
      simp
    · rw [Memory.lookup_write_other m b hx]
      by_cases hin : a + 1 ≤ x ∧ x < a + 1 + bs.length
      · rw [if_pos hin, if_pos (by simp only [List.length_cons]; omega)]
        have : x - a = (x - (a + 1)) + 1 := by omega
        rw [this, List.getElem?_cons_succ]
      · rw [if_neg hin, if_neg (by simp only [List.length_cons]; omega)]

theorem Memory.wfFrom_write {lo : Nat} {m : Memory} (h : Memory.wfFrom lo m = true) {a : Nat} (ha : lo ≤ a) (b : Byte) :
    Memory.wfFrom lo (Memory.write m a b) = true := by
  induction m generalizing lo with
  | nil => simp [Memory.write, Memory.wfFrom, ha]
  | cons cell m ih =>
    obtain ⟨k, c⟩ := cell
    simp only [Memory.wfFrom, Bool.and_eq_true, decide_eq_true_eq] at h
    simp only [Memory.write]
    split
    · simp only [Memory.wfFrom, Bool.and_eq_true, decide_eq_true_eq]
      exact ⟨ha, by omega, h.2⟩
    · split
      · rename_i h1 h2
        subst h2
        simpa [Memory.wfFrom] using h
      · simp only [Memory.wfFrom, Bool.and_eq_true, decide_eq_true_eq]
        exact ⟨h.1, ih h.2 (by omega)⟩

theorem Memory.wf_writeBytes {m : Memory} (h : Memory.wf m = true) (a : Nat) (bytes : List Byte) :
    Memory.wf (Memory.writeBytes m a bytes) = true := by
  induction bytes generalizing m a with
  | nil => exact h
  | cons b bs ih => exact ih (Memory.wfFrom_write h (Nat.zero_le a) b) (a + 1)

/-- The memory after reset has the canonical form. -/
theorem Memory.wf_reset : Memory.wf State.reset.mem = true := rfl

theorem Memory.within_write {size : Nat} {m : Memory} (h : Memory.within size m = true) {a : Nat} (ha : a < size)
    (b : Byte) : Memory.within size (Memory.write m a b) = true := by
  induction m with
  | nil => simp [Memory.write, Memory.within, ha]
  | cons cell m ih =>
    obtain ⟨k, c⟩ := cell
    simp only [Memory.within, List.all_cons, Bool.and_eq_true, decide_eq_true_eq] at h ih
    simp only [Memory.write]
    split
    · simp only [Memory.within, List.all_cons, Bool.and_eq_true, decide_eq_true_eq]
      exact ⟨ha, h.1, h.2⟩
    · split
      · simp only [Memory.within, List.all_cons, Bool.and_eq_true, decide_eq_true_eq]
        exact ⟨ha, h.2⟩
      · simp only [Memory.within, List.all_cons, Bool.and_eq_true, decide_eq_true_eq]
        exact ⟨h.1, ih h.2⟩

theorem Memory.within_writeBytes {size : Nat} {m : Memory} (h : Memory.within size m = true) {a : Nat}
    {bytes : List Byte} (ha : a + bytes.length ≤ size) :
    Memory.within size (Memory.writeBytes m a bytes) = true := by
  induction bytes generalizing m a with
  | nil => exact h
  | cons b bs ih =>
    simp only [List.length_cons] at ha
    exact ih (Memory.within_write h (by omega) b) (by omega)

@[simp] theorem State.length_memRead (s : State) (x n : Nat) : (s.memRead x n).length = n := by
  simp [State.memRead]

theorem State.getElem_memRead (s : State) (x n k : Nat) (h : k < (s.memRead x n).length) :
    (s.memRead x n)[k] = s.byteAt (x + k) := by
  simp [State.memRead]

/-- Two states that agree on a range read the same sequence from it. -/
theorem State.memRead_congr {s u : State} {x n : Nat} (h : ∀ k, k < n → s.byteAt (x + k) = u.byteAt (x + k)) :
    s.memRead x n = u.memRead x n := by
  refine List.ext_getElem (by simp) (fun k h1 h2 => ?_)
  rw [State.getElem_memRead, State.getElem_memRead, h k (by simpa using h1)]

/-- A write of a byte sequence is read back whole. -/
theorem State.memRead_memWrite (s : State) (x : Nat) (bytes : List Byte) :
    (s.memWrite x bytes).memRead x bytes.length = bytes := by
  refine List.ext_getElem (by simp) (fun k h1 h2 => ?_)
  rw [State.getElem_memRead]
  simp [State.byteAt, State.memWrite, Memory.read, Memory.lookup_writeBytes, h2]

/-- A write of a byte sequence leaves every Byte outside it as it was. -/
theorem State.byteAt_memWrite_outside (s : State) {x y : Nat} (bytes : List Byte)
    (h : y < x ∨ x + bytes.length ≤ y) : (s.memWrite x bytes).byteAt y = s.byteAt y := by
  simp only [State.byteAt, State.memWrite, Memory.read, Memory.lookup_writeBytes]
  rw [if_neg (by omega)]

end Sys2Proof.Machine
end

