-- ==== Sys2Proof/Laws/State.lean ====
section
/-! SUPPORT. Sys2Proof/Laws/State.lean: every field of every named update of a state. -/

namespace Sys2Proof.Machine

@[simp] theorem State.raise_a (s : State) (e : CommandError) : (s.raise e).a = s.a := rfl
@[simp] theorem State.raise_b (s : State) (e : CommandError) : (s.raise e).b = s.b := rfl
@[simp] theorem State.raise_r (s : State) (e : CommandError) : (s.raise e).r = s.r := rfl
@[simp] theorem State.raise_st (s : State) (e : CommandError) : (s.raise e).st = s.st := rfl
@[simp] theorem State.raise_rk (s : State) (e : CommandError) : (s.raise e).rk = s.rk := rfl
@[simp] theorem State.raise_rklen (s : State) (e : CommandError) : (s.raise e).rklen = s.rklen := rfl
@[simp] theorem State.raise_kptr (s : State) (e : CommandError) : (s.raise e).kptr = s.kptr := rfl
@[simp] theorem State.raise_klen (s : State) (e : CommandError) : (s.raise e).klen = s.klen := rfl
@[simp] theorem State.raise_iptr (s : State) (e : CommandError) : (s.raise e).iptr = s.iptr := rfl
@[simp] theorem State.raise_ilen (s : State) (e : CommandError) : (s.raise e).ilen = s.ilen := rfl
@[simp] theorem State.raise_sptr (s : State) (e : CommandError) : (s.raise e).sptr = s.sptr := rfl
@[simp] theorem State.raise_slen (s : State) (e : CommandError) : (s.raise e).slen = s.slen := rfl
@[simp] theorem State.raise_dptr (s : State) (e : CommandError) : (s.raise e).dptr = s.dptr := rfl
@[simp] theorem State.raise_dlen (s : State) (e : CommandError) : (s.raise e).dlen = s.dlen := rfl
@[simp] theorem State.raise_status (s : State) (e : CommandError) : (s.raise e).status = statusWord e.code (fatalAfter e s.fatal) := rfl
@[simp] theorem State.raise_mem (s : State) (e : CommandError) : (s.raise e).mem = s.mem := rfl
@[simp] theorem State.raise_memSize (s : State) (e : CommandError) : (s.raise e).memSize = s.memSize := rfl
@[simp] theorem State.raise_pending (s : State) (e : CommandError) : (s.raise e).pending = s.pending := rfl
@[simp] theorem State.raise_returned (s : State) (e : CommandError) : (s.raise e).returned = s.returned := rfl

@[simp] theorem State.succeed_a (s : State) : (s.succeed).a = s.a := rfl
@[simp] theorem State.succeed_b (s : State) : (s.succeed).b = s.b := rfl
@[simp] theorem State.succeed_r (s : State) : (s.succeed).r = s.r := rfl
@[simp] theorem State.succeed_st (s : State) : (s.succeed).st = s.st := rfl
@[simp] theorem State.succeed_rk (s : State) : (s.succeed).rk = s.rk := rfl
@[simp] theorem State.succeed_rklen (s : State) : (s.succeed).rklen = s.rklen := rfl
@[simp] theorem State.succeed_kptr (s : State) : (s.succeed).kptr = s.kptr := rfl
@[simp] theorem State.succeed_klen (s : State) : (s.succeed).klen = s.klen := rfl
@[simp] theorem State.succeed_iptr (s : State) : (s.succeed).iptr = s.iptr := rfl
@[simp] theorem State.succeed_ilen (s : State) : (s.succeed).ilen = s.ilen := rfl
@[simp] theorem State.succeed_sptr (s : State) : (s.succeed).sptr = s.sptr := rfl
@[simp] theorem State.succeed_slen (s : State) : (s.succeed).slen = s.slen := rfl
@[simp] theorem State.succeed_dptr (s : State) : (s.succeed).dptr = s.dptr := rfl
@[simp] theorem State.succeed_dlen (s : State) : (s.succeed).dlen = s.dlen := rfl
@[simp] theorem State.succeed_status (s : State) : (s.succeed).status = statusWord okCode s.fatal := rfl
@[simp] theorem State.succeed_mem (s : State) : (s.succeed).mem = s.mem := rfl
@[simp] theorem State.succeed_memSize (s : State) : (s.succeed).memSize = s.memSize := rfl
@[simp] theorem State.succeed_pending (s : State) : (s.succeed).pending = s.pending := rfl
@[simp] theorem State.succeed_returned (s : State) : (s.succeed).returned = s.returned := rfl

@[simp] theorem State.memWrite_a (s : State) (x : Nat) (bytes : List Byte) : (s.memWrite x bytes).a = s.a := rfl
@[simp] theorem State.memWrite_b (s : State) (x : Nat) (bytes : List Byte) : (s.memWrite x bytes).b = s.b := rfl
@[simp] theorem State.memWrite_r (s : State) (x : Nat) (bytes : List Byte) : (s.memWrite x bytes).r = s.r := rfl
@[simp] theorem State.memWrite_st (s : State) (x : Nat) (bytes : List Byte) : (s.memWrite x bytes).st = s.st := rfl
@[simp] theorem State.memWrite_rk (s : State) (x : Nat) (bytes : List Byte) : (s.memWrite x bytes).rk = s.rk := rfl
@[simp] theorem State.memWrite_rklen (s : State) (x : Nat) (bytes : List Byte) : (s.memWrite x bytes).rklen = s.rklen := rfl
@[simp] theorem State.memWrite_kptr (s : State) (x : Nat) (bytes : List Byte) : (s.memWrite x bytes).kptr = s.kptr := rfl
@[simp] theorem State.memWrite_klen (s : State) (x : Nat) (bytes : List Byte) : (s.memWrite x bytes).klen = s.klen := rfl
@[simp] theorem State.memWrite_iptr (s : State) (x : Nat) (bytes : List Byte) : (s.memWrite x bytes).iptr = s.iptr := rfl
@[simp] theorem State.memWrite_ilen (s : State) (x : Nat) (bytes : List Byte) : (s.memWrite x bytes).ilen = s.ilen := rfl
@[simp] theorem State.memWrite_sptr (s : State) (x : Nat) (bytes : List Byte) : (s.memWrite x bytes).sptr = s.sptr := rfl
@[simp] theorem State.memWrite_slen (s : State) (x : Nat) (bytes : List Byte) : (s.memWrite x bytes).slen = s.slen := rfl
@[simp] theorem State.memWrite_dptr (s : State) (x : Nat) (bytes : List Byte) : (s.memWrite x bytes).dptr = s.dptr := rfl
@[simp] theorem State.memWrite_dlen (s : State) (x : Nat) (bytes : List Byte) : (s.memWrite x bytes).dlen = s.dlen := rfl
@[simp] theorem State.memWrite_status (s : State) (x : Nat) (bytes : List Byte) : (s.memWrite x bytes).status = s.status := rfl
@[simp] theorem State.memWrite_mem (s : State) (x : Nat) (bytes : List Byte) : (s.memWrite x bytes).mem = Memory.writeBytes s.mem x bytes := rfl
@[simp] theorem State.memWrite_memSize (s : State) (x : Nat) (bytes : List Byte) : (s.memWrite x bytes).memSize = s.memSize := rfl
@[simp] theorem State.memWrite_pending (s : State) (x : Nat) (bytes : List Byte) : (s.memWrite x bytes).pending = s.pending := rfl
@[simp] theorem State.memWrite_returned (s : State) (x : Nat) (bytes : List Byte) : (s.memWrite x bytes).returned = s.returned := rfl

@[simp] theorem State.start_a (s : State) (rest : List HostOp) : (s.start rest).a = s.a := rfl
@[simp] theorem State.start_b (s : State) (rest : List HostOp) : (s.start rest).b = s.b := rfl
@[simp] theorem State.start_r (s : State) (rest : List HostOp) : (s.start rest).r = s.r := rfl
@[simp] theorem State.start_st (s : State) (rest : List HostOp) : (s.start rest).st = s.st := rfl
@[simp] theorem State.start_rk (s : State) (rest : List HostOp) : (s.start rest).rk = s.rk := rfl
@[simp] theorem State.start_rklen (s : State) (rest : List HostOp) : (s.start rest).rklen = s.rklen := rfl
@[simp] theorem State.start_kptr (s : State) (rest : List HostOp) : (s.start rest).kptr = s.kptr := rfl
@[simp] theorem State.start_klen (s : State) (rest : List HostOp) : (s.start rest).klen = s.klen := rfl
@[simp] theorem State.start_iptr (s : State) (rest : List HostOp) : (s.start rest).iptr = s.iptr := rfl
@[simp] theorem State.start_ilen (s : State) (rest : List HostOp) : (s.start rest).ilen = s.ilen := rfl
@[simp] theorem State.start_sptr (s : State) (rest : List HostOp) : (s.start rest).sptr = s.sptr := rfl
@[simp] theorem State.start_slen (s : State) (rest : List HostOp) : (s.start rest).slen = s.slen := rfl
@[simp] theorem State.start_dptr (s : State) (rest : List HostOp) : (s.start rest).dptr = s.dptr := rfl
@[simp] theorem State.start_dlen (s : State) (rest : List HostOp) : (s.start rest).dlen = s.dlen := rfl
@[simp] theorem State.start_status (s : State) (rest : List HostOp) : (s.start rest).status = s.status := rfl
@[simp] theorem State.start_mem (s : State) (rest : List HostOp) : (s.start rest).mem = s.mem := rfl
@[simp] theorem State.start_memSize (s : State) (rest : List HostOp) : (s.start rest).memSize = s.memSize := rfl
@[simp] theorem State.start_pending (s : State) (rest : List HostOp) : (s.start rest).pending = rest := rfl
@[simp] theorem State.start_returned (s : State) (rest : List HostOp) : (s.start rest).returned = none := rfl

@[simp] theorem State.hostReset_a (s : State) : (s.hostReset).a = State.reset.a := rfl
@[simp] theorem State.hostReset_b (s : State) : (s.hostReset).b = State.reset.b := rfl
@[simp] theorem State.hostReset_r (s : State) : (s.hostReset).r = State.reset.r := rfl
@[simp] theorem State.hostReset_st (s : State) : (s.hostReset).st = State.reset.st := rfl
@[simp] theorem State.hostReset_rk (s : State) : (s.hostReset).rk = State.reset.rk := rfl
@[simp] theorem State.hostReset_rklen (s : State) : (s.hostReset).rklen = State.reset.rklen := rfl
@[simp] theorem State.hostReset_kptr (s : State) : (s.hostReset).kptr = State.reset.kptr := rfl
@[simp] theorem State.hostReset_klen (s : State) : (s.hostReset).klen = State.reset.klen := rfl
@[simp] theorem State.hostReset_iptr (s : State) : (s.hostReset).iptr = State.reset.iptr := rfl
@[simp] theorem State.hostReset_ilen (s : State) : (s.hostReset).ilen = State.reset.ilen := rfl
@[simp] theorem State.hostReset_sptr (s : State) : (s.hostReset).sptr = State.reset.sptr := rfl
@[simp] theorem State.hostReset_slen (s : State) : (s.hostReset).slen = State.reset.slen := rfl
@[simp] theorem State.hostReset_dptr (s : State) : (s.hostReset).dptr = State.reset.dptr := rfl
@[simp] theorem State.hostReset_dlen (s : State) : (s.hostReset).dlen = State.reset.dlen := rfl
@[simp] theorem State.hostReset_status (s : State) : (s.hostReset).status = State.reset.status := rfl
@[simp] theorem State.hostReset_mem (s : State) : (s.hostReset).mem = s.mem := rfl
@[simp] theorem State.hostReset_memSize (s : State) : (s.hostReset).memSize = s.memSize := rfl
@[simp] theorem State.hostReset_pending (s : State) : (s.hostReset).pending = s.pending := rfl
@[simp] theorem State.hostReset_returned (s : State) : (s.hostReset).returned = State.reset.returned := rfl

end Sys2Proof.Machine
end

