-- ==== Sys2Proof/Laws/Command.lean ====
section
/-! SUPPORT. Sys2Proof/Laws/Command.lean: everything a command can do to the state, said once. -/

namespace Sys2Proof.Machine

theorem State.afterCommand_locked {s : State} (h : s.fatal = true) (body : State → Except CommandError State) :
    s.afterCommand body = s.raise .locked := by
  simp [State.afterCommand, h]

theorem State.afterCommand_ok {s t : State} {body : State → Except CommandError State} (hf : s.fatal = false)
    (h : body s = .ok t) : s.afterCommand body = t.succeed := by
  simp [State.afterCommand, hf, h]

theorem State.afterCommand_error {s : State} {body : State → Except CommandError State} {e : CommandError}
    (hf : s.fatal = false) (h : body s = .error e) : s.afterCommand body = s.raise e := by
  simp [State.afterCommand, hf, h]

/-- A command whose body makes its writes ends with `STATUS` zero. -/
theorem runCommand_ok {s t : State} {body : State → Except CommandError State} (hf : s.fatal = false)
    (h : body s = .ok t) (hs : t.status = s.status) : runCommand body s = .next { t with status := 0 } := by
  have ht : t.fatal = false := by rw [State.fatal, hs]; exact hf
  rw [runCommand, State.afterCommand_ok hf h, State.succeed, ht]
  rfl

/-- A command whose body raises an error other than `InvariantFault` ends with its code in `STATUS`. -/
theorem runCommand_error {s : State} {body : State → Except CommandError State} {e : CommandError}
    (hf : s.fatal = false) (h : body s = .error e) (he : e ≠ .invariantFault) :
    runCommand body s = .next { s with status := e.code.setWidth 32 } := by
  rw [runCommand, State.afterCommand_error hf h, State.raise, hf]
  cases e <;> first | rfl | exact absurd rfl he

/-- A command whose body raises `InvariantFault` ends with its code and `FATAL` in `STATUS`. -/
theorem runCommand_invariantFault {s : State} {body : State → Except CommandError State}
    (hf : s.fatal = false) (h : body s = .error .invariantFault) :
    runCommand body s = .next { s with status := 0x15 } := by
  rw [runCommand, State.afterCommand_error hf h, State.raise, hf]
  rfl

/-- While `FATAL` is 1 no body is run. -/
theorem runCommand_locked {s : State} (hf : s.fatal = true) (body : State → Except CommandError State) :
    runCommand body s = .next { s with status := 0x16 } := by
  rw [runCommand, State.afterCommand_locked hf, State.raise, hf]
  rfl

/-- A result that fits is stored with its length. -/
theorem State.storeResult_ok {s : State} {out : List Byte} (h : s.dptr.toNat + out.length ≤ s.memSize) :
    s.storeResult out
      = .ok { s.memWrite s.dptr.toNat out with dlen := BitVec.ofNat 32 out.length } := by
  simp [State.storeResult, State.inMem, h]

/-- A result that leaves `MEM` is an `AccessFault`. -/
theorem State.storeResult_error {s : State} {out : List Byte} (h : s.memSize < s.dptr.toNat + out.length) :
    s.storeResult out = .error .accessFault := by
  simp [State.storeResult, State.inMem, h]

/-- After a command that succeeded `FATAL` is 0. -/
theorem State.fatal_of_status {s : State} (h : s.status = 0) : s.fatal = false := by
  rw [State.fatal, h]
  decide

/-- A command that computes a result from the state it finds. -/
theorem runCommand_result {s : State} (hf : s.fatal = false) (f : State → Byte) :
    runCommand (fun s => .ok { s with r := f s }) s = .next { s with r := f s, status := 0 } :=
  runCommand_ok (t := { s with r := f s }) (body := fun s => .ok { s with r := f s }) hf rfl rfl

/-- A command that computes a grid from the state it finds. -/
theorem runCommand_grid {s : State} (hf : s.fatal = false) (f : State → Grid) :
    runCommand (fun s => .ok { s with st := f s }) s = .next { s with st := f s, status := 0 } :=
  runCommand_ok (t := { s with st := f s }) (body := fun s => .ok { s with st := f s }) hf rfl rfl

/-- A command whose body stores a result that fits. -/
theorem runCommand_store {s : State} {out : List Byte} {body : State → Except CommandError State}
    (hf : s.fatal = false) (h : body s = s.storeResult out) (hd : s.dptr.toNat + out.length ≤ s.memSize) :
    runCommand body s
      = .next { s.memWrite s.dptr.toNat out with dlen := BitVec.ofNat 32 out.length, status := 0 } :=
  runCommand_ok (t := { s.memWrite s.dptr.toNat out with dlen := BitVec.ofNat 32 out.length }) hf
    (h.trans (State.storeResult_ok hd)) rfl

/-- A command whose body would store a result that leaves `MEM`. -/
theorem runCommand_store_error {s : State} {out : List Byte} {body : State → Except CommandError State}
    (hf : s.fatal = false) (h : body s = s.storeResult out) (hd : s.memSize < s.dptr.toNat + out.length) :
    runCommand body s = .next { s with status := 4 } :=
  runCommand_error (e := .accessFault) hf (h.trans (State.storeResult_error hd)) (by decide)

/-- The writes a command can make before `STATUS` (10_state.md R22): a result, a grid, a schedule, or a byte
sequence at `DPTR` that lies inside `MEM`. -/
inductive Commit (s : State) : State → Prop where
  | result (v : Byte) : Commit s { s with r := v }
  | grid (g : Grid) : Commit s { s with st := g }
  | schedule (w : Schedule) : Commit s { s with rk := w, rklen := 44 }
  | stored (out : List Byte) (h : s.dptr.toNat + out.length ≤ s.memSize) :
    Commit s { s.memWrite s.dptr.toNat out with dlen := BitVec.ofNat 32 out.length }

theorem Commit.of_storeResult {s t : State} {out : List Byte} (h : s.storeResult out = .ok t) : Commit s t := by
  simp only [State.storeResult, State.inMem, decide_eq_true_eq] at h
  split at h
  · rename_i hle
    injection h with h
    exact h ▸ .stored out hle
  · cases h

theorem State.storeResult_not_locked {s : State} {out : List Byte} {e : CommandError}
    (h : s.storeResult out = .error e) : e = .accessFault := by
  simp only [State.storeResult] at h
  split at h
  · cases h
  · injection h with h
    exact h.symm

/-- What a command's body can answer: writes of the table of R22, or an error that is not `Locked`. -/
def GoodBody (body : State → Except CommandError State) (s : State) : Prop :=
  (∀ t, body s = .ok t → Commit s t) ∧ body s ≠ .error .locked

theorem GoodBody.of_ok {body : State → Except CommandError State} {s t : State} (h : body s = .ok t)
    (hc : Commit s t) : GoodBody body s :=
  ⟨fun u hu => (by rw [h] at hu; cases hu; exact hc), fun hl => (by rw [h] at hl; cases hl)⟩

theorem GoodBody.of_error {body : State → Except CommandError State} {s : State} {e : CommandError}
    (h : body s = .error e) (he : e ≠ .locked) : GoodBody body s :=
  ⟨fun u hu => (by rw [h] at hu; cases hu), fun hl => (by rw [h] at hl; cases hl; exact he rfl)⟩

theorem GoodBody.of_store {body : State → Except CommandError State} {s : State} {out : List Byte}
    (h : body s = s.storeResult out) : GoodBody body s := by
  cases hs : s.storeResult out with
  | ok t => exact .of_ok (h.trans hs) (.of_storeResult hs)
  | error e => exact .of_error (h.trans hs) (by rw [State.storeResult_not_locked hs]; decide)

/-- Everything a run command can do. -/
theorem runCommand_cases {body : State → Except CommandError State} {s t : State} (hb : GoodBody body s)
    (h : runCommand body s = .next t) :
    (s.fatal = true ∧ t = s.raise .locked)
      ∨ (s.fatal = false ∧ ((∃ e, e ≠ .locked ∧ body s = .error e ∧ t = s.raise e)
        ∨ ∃ u, body s = .ok u ∧ Commit s u ∧ t = u.succeed)) := by
  simp only [runCommand, Host.Outcome.next.injEq] at h
  cases hf : s.fatal with
  | true => exact .inl ⟨rfl, h ▸ State.afterCommand_locked hf body⟩
  | false =>
    refine .inr ⟨rfl, ?_⟩
    cases hs : body s with
    | ok u => exact .inr ⟨u, rfl, hb.1 u hs, h ▸ State.afterCommand_ok hf hs⟩
    | error e => exact .inl ⟨e, fun he => hb.2 (he ▸ hs), rfl, h ▸ State.afterCommand_error hf hs⟩

/-! ### The errors of the functions inside a command -/

theorem inverseSbox_error {x : Byte} {e : CommandError} (h : inverseSbox x = .error e) : e = .invariantFault := by
  unfold inverseSbox at h
  split at h
  · cases h
  · cases h
    rfl

theorem allFour_error {α : Type} {f : Fin 4 → Except CommandError α} {e : CommandError} (h : allFour f = .error e) :
    ∃ i, f i = .error e := by
  simp only [allFour] at h
  cases h0 : f 0 with
  | error e0 => rw [h0] at h; cases h; exact ⟨0, h0⟩
  | ok x0 =>
    cases h1 : f 1 with
    | error e1 => rw [h0, h1] at h; cases h; exact ⟨1, h1⟩
    | ok x1 =>
      cases h2 : f 2 with
      | error e2 => rw [h0, h1, h2] at h; cases h; exact ⟨2, h2⟩
      | ok x2 =>
        cases h3 : f 3 with
        | error e3 => rw [h0, h1, h2, h3] at h; cases h; exact ⟨3, h3⟩
        | ok x3 => rw [h0, h1, h2, h3] at h; cases h

/-- Four successes are a success with the four results. -/
theorem allFour_ok {α : Type} (g : Fin 4 → α) : allFour (fun i => .ok (g i)) = .ok (Vector.ofFn g) := by
  simp only [allFour]
  rfl

theorem invSubBytes_error {g : Grid} {e : CommandError} (h : invSubBytes g = .error e) : e = .invariantFault := by
  obtain ⟨r, hr⟩ := allFour_error h
  obtain ⟨c, hc⟩ := allFour_error hr
  exact inverseSbox_error hc

theorem decryptRounds_error {w : Schedule} {n : Nat} {g : Grid} {e : CommandError}
    (h : decryptRounds w n g = .error e) : e = .invariantFault := by
  induction n generalizing g with
  | zero => cases h
  | succ n ih =>
    simp only [decryptRounds] at h
    split at h
    · rename_i e' he
      cases h
      exact invSubBytes_error he
    · exact ih h

theorem decryptBlock_error {b : List Byte} {w : Schedule} {e : CommandError} (h : decryptBlock b w = .error e) :
    e = .invariantFault := by
  simp only [decryptBlock] at h
  split at h
  · rename_i e' he
    cases h
    exact decryptRounds_error he
  · split at h
    · rename_i e' he
      cases h
      exact invSubBytes_error he
    · cases h

theorem pkcs7Unpad_error {d : List Byte} {bs : Nat} {e : CommandError} (h : pkcs7Unpad d bs = .error e) :
    e = .paddingError := by
  simp only [pkcs7Unpad] at h
  repeat' split at h
  all_goals first
    | (cases h; done)
    | (injection h with h; exact h.symm)

theorem cbcEncrypt_error {key iv pt : List Byte} {np : Bool} {e : CommandError}
    (h : cbcEncrypt key iv pt np = .error e) : e = .lengthError := by
  simp only [cbcEncrypt] at h
  repeat' split at h
  all_goals first
    | (cases h; done)
    | (injection h with h; exact h.symm)

theorem decryptChain_error {w : Schedule} {n : Nat} {chain ct : List Byte} {e : CommandError}
    (h : decryptChain w n chain ct = .error e) : e = .invariantFault := by
  induction n generalizing chain ct with
  | zero => cases h
  | succ n ih =>
    simp only [decryptChain] at h
    split at h
    · rename_i e' he
      cases h
      exact decryptBlock_error he
    · split at h
      · rename_i e' he
        cases h
        exact ih he
      · cases h

theorem cbcDecrypt_not_locked {key iv ct : List Byte} {np : Bool} {e : CommandError}
    (h : cbcDecrypt key iv ct np = .error e) : e ≠ .locked := by
  simp only [cbcDecrypt] at h
  split at h
  · cases h; decide
  · split at h
    · cases h; decide
    · split at h
      · rename_i e' he
        cases h
        rw [decryptChain_error he]
        decide
      · split at h
        · cases h
        · rw [pkcs7Unpad_error h]
          decide

/-! ### Every command -/

/-- Every command is a body run through the check order of R147, and its body writes only what the table of R22
allows. -/
theorem exec_runs_body (i : Instr) (s : State) :
    ∃ body, exec i s = runCommand body s ∧ GoodBody body s := by
  cases i with
  | gfDbl => exact ⟨_, rfl, .of_ok rfl (.result _)⟩
  | gfMul => exact ⟨_, rfl, .of_ok rfl (.result _)⟩
  | gfPow => exact ⟨_, rfl, .of_ok rfl (.result _)⟩
  | gfInv => exact ⟨_, rfl, .of_ok rfl (.result _)⟩
  | sboxFwd => exact ⟨_, rfl, .of_ok rfl (.result _)⟩
  | sboxInv =>
    refine ⟨_, rfl, ?_⟩
    cases h : inverseSbox s.a with
    | ok v => exact .of_ok (by simp only [h]) (.result v)
    | error e => exact .of_error (e := e) (by simp only [h]) (by rw [inverseSbox_error h]; decide)
  | stLoad =>
    refine ⟨_, rfl, ?_⟩
    by_cases h1 : s.slen.toNat ≠ 16
    · exact .of_error (by simp only [if_pos h1]; rfl) (by decide)
    · by_cases h2 : s.inMem s.sptr 16 = true
      · exact .of_ok (by simp only [if_neg h1, if_pos h2]; rfl) (.grid _)
      · exact .of_error (by simp only [if_neg h1, if_neg h2]; rfl) (by decide)
  | stStore => exact ⟨_, rfl, .of_store rfl⟩
  | subBytes => exact ⟨_, rfl, .of_ok rfl (.grid _)⟩
  | invSubBytes =>
    refine ⟨_, rfl, ?_⟩
    cases h : invSubBytes s.st with
    | ok v => exact .of_ok (by simp only [h]) (.grid v)
    | error e => exact .of_error (e := e) (by simp only [h]) (by rw [invSubBytes_error h]; decide)
  | shiftRows => exact ⟨_, rfl, .of_ok rfl (.grid _)⟩
  | invShiftRows => exact ⟨_, rfl, .of_ok rfl (.grid _)⟩
  | mixColumns => exact ⟨_, rfl, .of_ok rfl (.grid _)⟩
  | invMixColumns => exact ⟨_, rfl, .of_ok rfl (.grid _)⟩
  | addRoundKey r =>
    refine ⟨_, rfl, ?_⟩
    by_cases h0 : 10 < r.toNat
    · exact .of_error (by simp only [if_pos h0]; rfl) (by decide)
    · by_cases h1 : s.rklen.toNat < 4 * r.toNat + 4
      · exact .of_error (by simp only [if_neg h0, if_pos h1]; rfl) (by decide)
      · exact .of_ok (by simp only [if_neg h0, if_neg h1]; rfl) (.grid _)
  | keyExpand =>
    refine ⟨_, rfl, ?_⟩
    by_cases h1 : s.klen.toNat ≠ 16
    · exact .of_error (by simp only [if_pos h1]; rfl) (by decide)
    · by_cases h2 : s.inMem s.kptr 16 = true
      · exact .of_ok (by simp only [if_neg h1, if_pos h2]; rfl) (.schedule _)
      · exact .of_error (by simp only [if_neg h1, if_neg h2]; rfl) (by decide)
  | blkEnc =>
    refine ⟨_, rfl, ?_⟩
    cases h1 : s.blockLengthsOk with
    | false => exact .of_error (e := .lengthError) (by simp [h1]) (by decide)
    | true =>
      cases h2 : s.inMem s.sptr 16 with
      | false => exact .of_error (e := .accessFault) (by simp [h1, h2]) (by decide)
      | true => exact .of_store (out := encryptBlock s.sourceBlock s.rk) (by simp [h1, h2])
  | blkDec =>
    refine ⟨_, rfl, ?_⟩
    cases h1 : s.blockLengthsOk with
    | false => exact .of_error (e := .lengthError) (by simp [h1]) (by decide)
    | true =>
      cases h2 : s.inMem s.sptr 16 with
      | false => exact .of_error (e := .accessFault) (by simp [h1, h2]) (by decide)
      | true =>
        cases h3 : decryptBlock s.sourceBlock s.rk with
        | error e => exact .of_error (e := e) (by simp [h1, h2, h3]) (by rw [decryptBlock_error h3]; decide)
        | ok out => exact .of_store (out := out) (by simp [h1, h2, h3])
  | pkcs7Pad =>
    refine ⟨_, rfl, ?_⟩
    cases h2 : s.inMem s.sptr s.slen.toNat with
    | false => exact .of_error (e := .accessFault) (by simp [h2]) (by decide)
    | true => exact .of_store (out := pkcs7Pad s.sourceBytes blockSize) (by simp [h2])
  | pkcs7Unpad =>
    refine ⟨_, rfl, ?_⟩
    cases h2 : s.inMem s.sptr s.slen.toNat with
    | false => exact .of_error (e := .accessFault) (by simp [h2]) (by decide)
    | true =>
      cases h3 : pkcs7Unpad s.sourceBytes blockSize with
      | error e => exact .of_error (e := e) (by simp [h2, h3]) (by rw [pkcs7Unpad_error h3]; decide)
      | ok out => exact .of_store (out := out) (by simp [h2, h3])
  | cbcEnc np =>
    refine ⟨_, rfl, ?_⟩
    cases h1 : s.keyIvLengthsOk with
    | false => exact .of_error (e := .lengthError) (by simp [h1]) (by decide)
    | true =>
      cases h2 : (np && !positiveMultipleOf16 s.slen.toNat) with
      | true => exact .of_error (e := .lengthError) (by simp only [h1, h2]; rfl) (by decide)
      | false =>
        cases h3 : s.cbcSourcesInMem with
        | false => exact .of_error (e := .accessFault) (by simp only [h1, h2, h3]; rfl) (by decide)
        | true =>
          cases h4 : cbcEncrypt s.keyBytes s.ivBytes s.sourceBytes np with
          | error e =>
            exact .of_error (e := e) (by simp only [h1, h2, h3, h4]; rfl) (by rw [cbcEncrypt_error h4]; decide)
          | ok out => exact .of_store (out := out) (by simp only [h1, h2, h3, h4]; rfl)
  | cbcDec np =>
    refine ⟨_, rfl, ?_⟩
    cases h1 : s.keyIvLengthsOk with
    | false => exact .of_error (e := .lengthError) (by simp [h1]) (by decide)
    | true =>
      cases h2 : positiveMultipleOf16 s.slen.toNat with
      | false => exact .of_error (e := .lengthError) (by simp only [h1, h2]; rfl) (by decide)
      | true =>
        cases h3 : s.cbcSourcesInMem with
        | false => exact .of_error (e := .accessFault) (by simp only [h1, h2, h3]; rfl) (by decide)
        | true =>
          cases h4 : cbcDecrypt s.keyBytes s.ivBytes s.sourceBytes np with
          | error e =>
            exact .of_error (e := e) (by simp only [h1, h2, h3, h4]; rfl) (cbcDecrypt_not_locked h4)
          | ok out => exact .of_store (out := out) (by simp only [h1, h2, h3, h4]; rfl)

/-- Everything a command can do: `Locked` while `FATAL` is 1, else an error that changes `STATUS` only, or the
writes of the table of R22 with `STATUS.ERR` zero. -/
theorem exec_cases {i : Instr} {s t : State} (h : exec i s = .next t) :
    (s.fatal = true ∧ t = s.raise .locked)
      ∨ (s.fatal = false ∧ ((∃ e, e ≠ .locked ∧ t = s.raise e) ∨ ∃ u, Commit s u ∧ t = u.succeed)) := by
  obtain ⟨body, hb, hg⟩ := exec_runs_body i s
  rcases runCommand_cases hg (hb ▸ h) with h | ⟨hf, ⟨e, he, -, ht⟩ | ⟨u, -, hc, ht⟩⟩
  · exact .inl h
  · exact .inr ⟨hf, .inl ⟨e, he, ht⟩⟩
  · exact .inr ⟨hf, .inr ⟨u, hc, ht⟩⟩

end Sys2Proof.Machine
end

