-- ==== Sys2Proof/Laws/Gf.lean ====
section
/-! SUPPORT. Sys2Proof/Laws/Gf.lean: checking a property of all 256 Bytes, and how `double` and the loop of `multiply`
treat XOR. -/

namespace Sys2Proof.Machine

/-- A Boolean property that holds of the 256 numerals holds of every Byte. -/
theorem forall_byte {p : Byte → Bool} (h : (List.range 256).all (fun v => p (BitVec.ofNat 8 v)) = true) (x : Byte) :
    p x = true := by
  have hx := List.all_eq_true.1 h x.toNat (List.mem_range.2 x.isLt)
  simpa using hx

/-- The same Byte added twice cancels. -/
theorem xor_cancel_right (c x y : Byte) : (x ^^^ c) ^^^ (y ^^^ c) = x ^^^ y := by
  rw [show (x ^^^ c) ^^^ (y ^^^ c) = (c ^^^ c) ^^^ (x ^^^ y) by ac_rfl, BitVec.xor_self, BitVec.zero_xor]

theorem double_xor (a b : Byte) : double (a ^^^ b) = double a ^^^ double b := by
  unfold double
  rw [BitVec.getLsbD_xor]
  cases a.getLsbD 7 <;> cases b.getLsbD 7 <;>
    simp only [BitVec.shiftLeft_xor_distrib, cond_true, cond_false, Bool.xor_true, Bool.xor_false, Bool.not_true,
      Bool.not_false]
  · ac_rfl
  · ac_rfl
  · exact (xor_cancel_right _ _ _).symm

/-- What has been accumulated is added to what the rest of the loop makes. -/
theorem multiplyLoop_accumulator (n : Nat) (c d a b : Byte) :
    multiplyLoop n (c ^^^ d) a b = c ^^^ multiplyLoop n d a b := by
  induction n generalizing d a b with
  | zero => rfl
  | succ n ih =>
    simp only [multiplyLoop]
    rw [← ih]
    congr 1
    cases b.getLsbD 0 <;> simp [BitVec.xor_assoc]

end Sys2Proof.Machine
end

