-- ==== Sys2Proof/Laws/PerInstr.lean ====
section
/-! SUPPORT. Sys2Proof/Laws/PerInstr.lean: one lemma per command for the statements made of every command. -/

namespace Sys2Proof.Laws.RowMatch

/-- The word of a well-formed command matches the command's row of the opcode table under its mask, bits 31:13 of the
word are 0, and its `op` is that of the row (30_encoding.md R45, R48). -/
def Statement (i : Instr) : Prop :=
  i.wf = true →
    encode i &&& (opcodeRow i).mask = (opcodeRow i).value ∧ zeroField (encode i) = 0
      ∧ opField (encode i) = opField (opcodeRow i).value

theorem gfDbl : Statement .gfDbl := fun _ => by decide

theorem gfMul : Statement .gfMul := fun _ => by decide

theorem gfPow : Statement .gfPow := fun _ => by decide

theorem gfInv : Statement .gfInv := fun _ => by decide

theorem sboxFwd : Statement .sboxFwd := fun _ => by decide

theorem sboxInv : Statement .sboxInv := fun _ => by decide

theorem stLoad : Statement .stLoad := fun _ => by decide

theorem stStore : Statement .stStore := fun _ => by decide

theorem subBytes : Statement .subBytes := fun _ => by decide

theorem invSubBytes : Statement .invSubBytes := fun _ => by decide

theorem shiftRows : Statement .shiftRows := fun _ => by decide

theorem invShiftRows : Statement .invShiftRows := fun _ => by decide

theorem mixColumns : Statement .mixColumns := fun _ => by decide

theorem invMixColumns : Statement .invMixColumns := fun _ => by decide

theorem addRoundKey (r : BitVec 4) : Statement (.addRoundKey r) := fun _ => by revert r; decide

theorem keyExpand : Statement .keyExpand := fun _ => by decide

theorem blkEnc : Statement .blkEnc := fun _ => by decide

theorem blkDec : Statement .blkDec := fun _ => by decide

theorem pkcs7Pad : Statement .pkcs7Pad := fun _ => by decide

theorem pkcs7Unpad : Statement .pkcs7Unpad := fun _ => by decide

theorem cbcEnc (np : Bool) : Statement (.cbcEnc np) := fun _ => by cases np <;> decide

theorem cbcDec (np : Bool) : Statement (.cbcDec np) := fun _ => by cases np <;> decide

end Sys2Proof.Laws.RowMatch
end

