-- ==== Sys2Proof/Laws/Step.lean ====
section
/-! SUPPORT. Sys2Proof/Laws/Step.lean: everything a step can do, said once. -/

namespace Sys2Proof.Machine

/-- Everything a write to `CMD` can do: `Locked`, `IllegalCommand`, or the command the word encodes. -/
theorem writeCmd_cases {w : Word} {s t : State} (h : writeCmd w s = .next t) :
    (s.fatal = true ∧ t = s.raise .locked)
      ∨ (s.fatal = false ∧ ((∃ e, decode w = .error e ∧ t = s.raise .illegalCommand)
        ∨ ∃ i, decode w = .ok i ∧ exec i s = .next t)) := by
  unfold writeCmd at h
  cases hf : s.fatal with
  | true =>
    rw [hf, if_pos rfl] at h
    cases h
    exact .inl ⟨rfl, rfl⟩
  | false =>
    rw [hf, if_neg Bool.false_ne_true] at h
    cases hd : decode w with
    | ok i => exact .inr ⟨rfl, .inr ⟨i, rfl, by simpa only [hd] using h⟩⟩
    | error e =>
      rw [hd] at h
      refine .inr ⟨rfl, .inl ⟨e, rfl, ?_⟩⟩
      simp only [runIllegal, runCommand, Host.Outcome.next.injEq] at h
      exact h ▸ State.afterCommand_error hf rfl

/-- Everything a step can do: nothing while the host asks for nothing, else its first primitive. -/
theorem step_cases {s t : State} (h : step s = .next t) :
    (s.pending = [] ∧ t = s)
      ∨ ∃ op rest, s.pending = op :: rest ∧ hostOp op (s.start rest) = .next t := by
  unfold step at h
  cases hp : s.pending with
  | nil =>
    rw [hp] at h
    cases h
    exact .inl ⟨rfl, rfl⟩
  | cons op rest =>
    rw [hp] at h
    exact .inr ⟨op, rest, rfl, h⟩

/-- Everything a host primitive can do to a state. -/
theorem hostOp_cases {op : HostOp} {s t : State} (h : hostOp op s = .next t) :
    (∃ w, op = .writeReg 0 w ∧ writeCmd w s = .next t)
      ∨ (∃ off reg v, op = .writeReg off v ∧ regAt off = some reg ∧ reg ≠ .cmd ∧ t = s.writeReg reg v)
      ∨ (∃ off reg, op = .readReg off ∧ regAt off = some reg
          ∧ t = { s with returned := some (.reg (s.readReg reg)) })
      ∨ (∃ a b, op = .writeMem a b ∧ a < s.memSize ∧ t = s.memWrite a [b])
      ∨ (∃ a, op = .readMem a ∧ a < s.memSize ∧ t = { s with returned := some (.byte (s.byteAt a)) })
      ∨ (op = .reset ∧ t = s.hostReset) := by
  cases op with
  | writeReg off v =>
    simp only [hostOp, hostWriteReg] at h
    split at h
    · cases h
    · rename_i hr
      have h0 : off = 0 := by
        unfold regAt at hr
        split at hr <;> first | rfl | (cases hr) | skip
        split at hr
        · cases hr
        · split at hr
          · cases hr
          · split at hr <;> cases hr
      exact .inl ⟨v, by rw [h0], h⟩
    · rename_i reg hne hr
      cases h
      exact .inr (.inl ⟨off, reg, v, rfl, hr, fun hc => hne hc, rfl⟩)
  | readReg off =>
    simp only [hostOp, hostReadReg] at h
    split at h
    · cases h
    · rename_i reg hr
      cases h
      exact .inr (.inr (.inl ⟨off, reg, rfl, hr, rfl⟩))
  | writeMem a b =>
    simp only [hostOp, hostWriteMem] at h
    split at h
    · rename_i ha
      cases h
      exact .inr (.inr (.inr (.inl ⟨a, b, rfl, ha, rfl⟩)))
    · cases h
  | readMem a =>
    simp only [hostOp, hostReadMem] at h
    split at h
    · rename_i ha
      cases h
      exact .inr (.inr (.inr (.inr (.inl ⟨a, rfl, ha, rfl⟩))))
    · cases h
  | reset =>
    cases h
    exact .inr (.inr (.inr (.inr (.inr ⟨rfl, rfl⟩))))

@[simp] theorem State.writeReg_mem (s : State) (reg : RegName) (v : Word) : (s.writeReg reg v).mem = s.mem := by
  cases reg <;> rfl

@[simp] theorem State.writeReg_memSize (s : State) (reg : RegName) (v : Word) :
    (s.writeReg reg v).memSize = s.memSize := by
  cases reg <;> rfl

@[simp] theorem State.writeReg_status (s : State) (reg : RegName) (v : Word) :
    (s.writeReg reg v).status = s.status := by
  cases reg <;> rfl

@[simp] theorem State.writeReg_r (s : State) (reg : RegName) (v : Word) : (s.writeReg reg v).r = s.r := by
  cases reg <;> rfl

@[simp] theorem State.writeReg_pending (s : State) (reg : RegName) (v : Word) :
    (s.writeReg reg v).pending = s.pending := by
  cases reg <;> rfl

@[simp] theorem State.writeReg_returned (s : State) (reg : RegName) (v : Word) :
    (s.writeReg reg v).returned = s.returned := by
  cases reg <;> rfl

end Sys2Proof.Machine
end

