-- ==== Sys2Proof/Tests/Slice0.lean ====
section
/-! SUPPORT. Sys2Proof/Tests/Slice0.lean: the model's own tests, and for every statement with hypotheses a concrete input
that meets them. Expected values come from spec/95_test_vectors.md, the examples of the rules, or by hand from a rule. -/

open Sys2Proof Sys2Proof.Machine

namespace Sys2Proof.Tests

/-! ### Helpers -/

/-- A byte sequence of `n` Bytes from one hexadecimal numeral, most significant Byte first. -/
def hexBytes (n v : Nat) : List Byte := (List.range n).map (fun k => BitVec.ofNat 8 (v >>> (8 * (n - 1 - k))))

/-- A grid written in block order (42_state_transforms.md R81). -/
def gridOf (v : Nat) : Grid := bytesToState (hexBytes 16 v)

/-- The state after reset of a CORE with 1024 Bytes of `MEM`. -/
def base : State := { State.reset with memSize := 1024 }

/-- The same with `STATUS.FATAL` 1, which no run reaches (R143). -/
def lockedState : State := { base with status := 0x15 }

/-- A source sequence at address 0, a destination at 64, a key at 256 and an initialisation vector at 272. -/
def withSource (bytes : List Byte) : State :=
  { base.memWrite 0 bytes with
    slen := BitVec.ofNat 32 bytes.length, dptr := 64, kptr := 256, klen := 16, iptr := 272, ilen := 16 }

/-- The key of the known-answer vector of the spec, and its schedule store. -/
def katKey : List Byte := hexBytes 16 0x000102030405060708090a0b0c0d0e0f

def katPlain : List Byte := hexBytes 16 0x00112233445566778899aabbccddeeff

def katCipher : List Byte := hexBytes 16 0x69c4e0d86a7b0430d8cdb78070b4c55a

/-- A command word from its four fields (30_encoding.md R45). -/
def word (zero : BitVec 19) (np : BitVec 1) (r : BitVec 4) (op : BitVec 8) : Word := zero ++ np ++ r ++ op

/-- What a function of the next state gives, none where there is no next state. -/
def seen {α : Type} (f : State → α) : Host.Outcome State Fault Refusal → Option α
  | .next t => some (f t)
  | .fault _ => none
  | .refused _ => none

/-- The reason of a refusal. -/
def refusal : Host.Outcome State Fault Refusal → Option Refusal
  | .next _ => none
  | .fault _ => none
  | .refused r => some r

/-! ### WellFormed -/

/-- The round-key index 11 is ill-formed and so is 15; 10 is well-formed (R46). -/
theorem test_wf_roundKey :
    (Instr.addRoundKey 11).wf = false ∧ (Instr.addRoundKey 15).wf = false ∧ (Instr.addRoundKey 10).wf = true := by
  decide

/-- Offsets R39 does not list: each gap at its ends, above the map, and not a multiple of 4. -/
theorem test_wf_hostReg :
    (HostOp.writeReg 0x018 0).wf 1024 = false ∧ (HostOp.readReg 0x01C).wf 1024 = false
      ∧ (HostOp.readReg 0x050).wf 1024 = false ∧ (HostOp.writeReg 0x0FC 0).wf 1024 = false
      ∧ (HostOp.readReg 0x1B0).wf 1024 = false ∧ (HostOp.readReg 0x005).wf 1024 = false
      ∧ (HostOp.readReg 0x1AC).wf 1024 = true ∧ (HostOp.writeReg 0x04C 0).wf 1024 = true := by
  decide

/-- Addresses outside `MEM` (U2). -/
theorem test_wf_hostMem :
    (HostOp.writeMem 1024 0).wf 1024 = false ∧ (HostOp.readMem 1024).wf 1024 = false
      ∧ (HostOp.readMem 1023).wf 1024 = true ∧ HostOp.reset.wf 1024 = true := by
  decide

/-! ### Decoding: words written out from the spec's encoding (R45, R48) -/

theorem test_decode_gf :
    decode 0b00000000000000000000000000010000 = .ok .gfDbl ∧ decode (word 0 0 0 0b00010001) = .ok .gfMul
      ∧ decode (word 0 0 0 0b00010010) = .ok .gfPow ∧ decode (word 0 0 0 0b00010011) = .ok .gfInv := by
  decide

theorem test_decode_sbox :
    decode 0b00000000000000000000000000100000 = .ok .sboxFwd ∧ decode (word 0 0 0 0b00100001) = .ok .sboxInv := by
  decide

theorem test_decode_state :
    decode 0b00000000000000000000000000110000 = .ok .stLoad ∧ decode (word 0 0 0 0b00110001) = .ok .stStore
      ∧ decode (word 0 0 0 0b00110010) = .ok .subBytes ∧ decode (word 0 0 0 0b00110011) = .ok .invSubBytes
      ∧ decode (word 0 0 0 0b00110100) = .ok .shiftRows ∧ decode (word 0 0 0 0b00110101) = .ok .invShiftRows
      ∧ decode (word 0 0 0 0b00110110) = .ok .mixColumns ∧ decode (word 0 0 0 0b00110111) = .ok .invMixColumns := by
  decide

theorem test_decode_addRoundKey :
    decode 0b00000000000000000000000000111000 = .ok (.addRoundKey 0)
      ∧ decode 0b00000000000000000000101000111000 = .ok (.addRoundKey 10)
      ∧ decode (word 0 0 0b0101 0b00111000) = .ok (.addRoundKey 5) := by
  decide

theorem test_decode_key_and_block :
    decode 0b00000000000000000000000001000000 = .ok .keyExpand
      ∧ decode 0b00000000000000000000000001010000 = .ok .blkEnc
      ∧ decode (word 0 0 0 0b01010001) = .ok .blkDec := by
  decide

theorem test_decode_padding_and_cbc :
    decode 0b00000000000000000000000001100000 = .ok .pkcs7Pad ∧ decode (word 0 0 0 0b01100001) = .ok .pkcs7Unpad
      ∧ decode 0b00000000000000000001000001100010 = .ok (.cbcEnc true)
      ∧ decode (word 0 0 0 0b01100010) = .ok (.cbcEnc false) ∧ decode (word 0 1 0 0b01100011) = .ok (.cbcDec true)
      ∧ decode (word 0 0 0 0b01100011) = .ok (.cbcDec false) := by
  decide

/-- The illegal words of 95_test_vectors.md section 10, by the test of R53 that catches each. -/
theorem test_decode_illegal :
    decode 0x00000b38 = .error .roundKeyOutOfRange ∧ decode 0x00001038 = .error .noPaddingNotOperand
      ∧ decode 0x00000162 = .error .roundKeyNotOperand ∧ decode 0x00001011 = .error .noPaddingNotOperand
      ∧ decode 0x00000111 = .error .roundKeyNotOperand ∧ decode 0x00002011 = .error .zeroFieldSet
      ∧ decode 0x80000011 = .error .zeroFieldSet ∧ decode 0x00000014 = .error .unassignedOp
      ∧ decode 0x00000000 = .error .unassignedOp := by
  decide

theorem test_encode :
    encode .gfMul = 0x00000011 ∧ encode (.addRoundKey 10) = 0x00000a38 ∧ encode (.cbcEnc true) = 0x00001062 := by
  decide

theorem test_decodeTableWord :
    decodeTableWord 32 0x00001062 = some (.cbcEnc true) ∧ decodeTableWord 32 0x00000b38 = none := by
  decide

/-- `ADD_ROUND_KEY 3` and `CBC_ENC np` in the notation of R51, read and written. -/
theorem test_notation :
    parseCommand "ADD_ROUND_KEY 3" = some (.addRoundKey 3) ∧ parseCommand "ADD_ROUND_KEY 11" = none
      ∧ (Instr.cbcEnc true).asm = "CBC_ENC np" := by
  decide +kernel

/-- `SRC` writes `SPTR` and `SLEN`; `WRMEM` writes Byte by Byte (R52). -/
theorem test_expand :
    expandScript [.src 16 3, .wrmem 5 [7, 8], .command .gfMul]
      = [.writeReg 0x030 16, .writeReg 0x034 3, .writeMem 5 7, .writeMem 6 8, .writeReg 0x000 0x11] := by
  decide

/-! ### The step and the host port -/

theorem test_withFetchWord :
    seen (fun t => (t.r, t.status, t.pending)) (step ({ base with a := 0x57, b := 0x83 }.withFetchWord 32 0x11))
      = some (0xc1, 0, []) := by
  decide

/-- The first step after reset runs the placed command, whatever `MEMSIZE` is. -/
theorem test_withFetchWord_from_reset :
    seen (fun t => (t.r, t.status)) (step (State.reset.withFetchWord 32 0x20)) = some (0x63, 0) := by
  decide +kernel

/-- `WR A, 0x1FF` leaves `A = ff`; a write to `R` and one to `STATUS` are ignored. -/
theorem test_hostWriteReg :
    seen (fun t => t.a) (hostWriteReg 0x008 0x1FF base) = some 0xff
      ∧ seen (fun t => t.r) (hostWriteReg 0x010 0x12 base) = some 0
      ∧ seen (fun t => t.status) (hostWriteReg 0x004 0x12 base) = some 0 := by
  decide

/-- `STCOL0` of the grid of `00112233..ff` reads `0x00112233`; writing `STCOL3` replaces column 3 alone. -/
theorem test_hostStcol :
    seen (fun t => t.returned)
        (hostReadReg 0x040 { base with st := gridOf 0x00112233445566778899aabbccddeeff })
          = some (some (.reg 0x00112233))
      ∧ seen (fun t => t.st) (hostWriteReg 0x04C 0x01020304 base) = some (gridOf 0x01020304) := by
  decide

theorem test_hostMem :
    seen (fun t => t.byteAt 1023) (hostWriteMem 1023 0xAB base) = some 0xAB
      ∧ refusal (hostWriteMem 1024 0xAB base) = some (.hostMemOutOfRange 1024)
      ∧ refusal (hostReadReg 0x018 base) = some (.hostRegUnlisted 0x018) := by
  decide

/-- Reset from a locked state clears `STATUS` and `A` and leaves `MEM`. -/
theorem test_hostReset :
    seen (fun t => (t.status, t.a, t.byteAt 7)) (hostOp .reset ({ lockedState with a := 1 }.memWrite 7 [9]))
      = some (0, 0, 9) := by
  decide

/-- The order of R147: `Locked` before `IllegalCommand`; `LengthError` before `AccessFault`. -/
theorem test_check_order :
    seen (fun t => t.status) (writeCmd 0x00000000 lockedState) = some 0x16
      ∧ seen (fun t => t.status) (writeCmd 0x00000000 base) = some 1
      ∧ seen (fun t => t.status) (writeCmd 0x00000030 { base with slen := 15, sptr := 0xFFFFFFFF }) = some 2
      ∧ seen (fun t => t.status) (writeCmd 0x00000030 { base with slen := 16, sptr := 0xFFFFFFFF }) = some 4 := by
  decide

/-! ### GF(2^8) and S-box -/

theorem test_gfDbl :
    seen (fun t => (t.r, t.status)) (exec .gfDbl { base with a := 0x57, status := 3 }) = some (0xae, 0)
      ∧ seen (fun t => t.r) (exec .gfDbl { base with a := 0x80 }) = some 0x1b := by
  decide

theorem test_gfMul :
    seen (fun t => t.r) (exec .gfMul { base with a := 0x57, b := 0x83 }) = some 0xc1
      ∧ seen (fun t => t.r) (exec .gfMul { base with a := 0x80, b := 0x80 }) = some 0x9a := by
  decide

theorem test_gfPow :
    seen (fun t => t.r) (exec .gfPow { base with a := 0x02, b := 8 }) = some 0x1b
      ∧ seen (fun t => t.r) (exec .gfPow { base with a := 0x00, b := 0 }) = some 0x01 := by
  decide +kernel

theorem test_gfInv :
    seen (fun t => t.r) (exec .gfInv { base with a := 0x53 }) = some 0xca
      ∧ seen (fun t => t.r) (exec .gfInv base) = some 0x00 := by
  decide +kernel

theorem test_sboxFwd :
    seen (fun t => t.r) (exec .sboxFwd { base with a := 0x53 }) = some 0xed
      ∧ seen (fun t => t.r) (exec .sboxFwd { base with a := 0xff }) = some 0x16 := by
  decide +kernel

theorem test_sboxInv : seen (fun t => t.r) (exec .sboxInv { base with a := 0x63 }) = some 0x00 := by
  decide +kernel

/-! ### State transforms -/

theorem test_stLoad :
    seen (fun t => (Grid.column t.st 1, t.status)) (exec .stLoad (withSource katPlain)) = some (0x44556677, 0) := by
  decide

theorem test_stStore :
    seen (fun t => (t.memRead 64 16, t.dlen))
        (exec .stStore { base with st := gridOf 0x00112233445566778899aabbccddeeff, dptr := 64 })
      = some (katPlain, 16) := by
  decide

theorem test_subBytes :
    seen (fun t => t.st) (exec .subBytes { base with st := gridOf 0x00102030405060708090a0b0c0d0e0f0 })
      = some (gridOf 0x63cab7040953d051cd60e0e7ba70e18c) := by
  decide +kernel

/-- `63` is found at `00`, `7c` at `01` and `7b` at `03` (the table of section 3). -/
theorem test_invSubBytes :
    seen (fun t => t.st) (exec .invSubBytes { base with st := gridOf 0x636363637c636363636363636363637b })
      = some (gridOf 0x00000000010000000000000000000003) := by
  decide +kernel

theorem test_shiftRows :
    seen (fun t => t.st) (exec .shiftRows { base with st := gridOf 0x000102030405060708090a0b0c0d0e0f })
      = some (gridOf 0x00050a0f04090e03080d02070c01060b) := by
  decide

theorem test_invShiftRows :
    seen (fun t => t.st) (exec .invShiftRows { base with st := gridOf 0x000102030405060708090a0b0c0d0e0f })
      = some (gridOf 0x000d0a0704010e0b0805020f0c090603) := by
  decide

theorem test_mixColumns :
    seen (fun t => t.st) (exec .mixColumns { base with st := gridOf 0x6353e08c0960e104cd70b751bacad0e7 })
      = some (gridOf 0x5f72641557f5bc92f7be3b291db9f91a) := by
  decide +kernel

theorem test_invMixColumns :
    seen (fun t => t.st) (exec .invMixColumns { base with st := gridOf 0x5f72641557f5bc92f7be3b291db9f91a })
      = some (gridOf 0x6353e08c0960e104cd70b751bacad0e7) := by
  decide +kernel

/-- Round key 1 is `RK[4]` to `RK[7]`, here written by the host (program P3), with `RKLEN` 8. -/
theorem test_addRoundKey :
    seen (fun t => t.st)
        (exec (.addRoundKey 1) { base with
          st := gridOf 0x5f72641557f5bc92f7be3b291db9f91a, rklen := 8,
          rk := (((base.rk.set 4 0xd6aa74fd).set 5 0xd2af72fa).set 6 0xdaa678f1).set 7 0xd6ab76fe })
      = some (gridOf 0x89d810e8855ace682d1843d8cb128fe4) := by
  decide

/-- Reading round key 1 needs `RKLEN` of 8 at least; a word with `r = 11` is no command. -/
theorem test_addRoundKey_errors :
    seen (fun t => t.status) (exec (.addRoundKey 1) { base with rklen := 7 }) = some 2
      ∧ seen (fun t => t.status) (writeCmd 0x00000b38 { base with rklen := 44 }) = some 1 := by
  decide

/-! ### Key schedule, block cipher, padding and chaining -/

theorem test_keyExpand :
    seen (fun t => (t.rklen, t.rk[0], t.rk[4], t.rk[5], t.rk[40], t.rk[43]))
        (exec .keyExpand ((withSource []).memWrite 256 katKey))
      = some (44, 0x00010203, 0xd6aa74fd, 0xd2af72fa, 0x13111d7f, 0x4d2b30c5) := by
  decide +kernel

theorem test_keyExpand_length :
    seen (fun t => (t.status, t.rklen)) (exec .keyExpand { withSource [] with klen := 17 }) = some (2, 0) := by
  decide

/-- The source's known-answer vector (95_test_vectors.md section 1.1). -/
theorem test_known_answer : encryptBlock katPlain (expandKey katKey) = katCipher := by
  decide +kernel

/-- The known-answer vector backwards (section 6). -/
theorem test_known_answer_back : decryptBlock katCipher (expandKey katKey) = .ok katPlain := by
  decide +kernel

/-- A source block and the schedule of the known-answer key. -/
def blockState (src : List Byte) : State := { withSource src with rk := expandKey katKey, rklen := 44 }

theorem test_blkEnc :
    seen (fun t => (t.memRead 64 16, t.dlen, t.status)) (exec .blkEnc (blockState katPlain))
      = some (katCipher, 16, 0) := by
  have h1 : (blockState katPlain).blockLengthsOk = true := by decide
  have h2 : (blockState katPlain).inMem (blockState katPlain).sptr 16 = true := by decide
  have h3 : (blockState katPlain).sourceBlock = katPlain := by decide
  have h4 : (blockState katPlain).rk = expandKey katKey := rfl
  show seen _ (runCommand _ _) = _
  rw [runCommand_store (out := katCipher) rfl (by simp [h1, h2, h3, h4, test_known_answer]) (by decide)]
  decide

theorem test_blkDec :
    seen (fun t => (t.memRead 64 16, t.dlen, t.status)) (exec .blkDec (blockState katCipher))
      = some (katPlain, 16, 0) := by
  have h1 : (blockState katCipher).blockLengthsOk = true := by decide
  have h2 : (blockState katCipher).inMem (blockState katCipher).sptr 16 = true := by decide
  have h3 : (blockState katCipher).sourceBlock = katCipher := by decide
  have h4 : (blockState katCipher).rk = expandKey katKey := rfl
  show seen _ (runCommand _ _) = _
  rw [runCommand_store (out := katPlain) rfl (by simp [h1, h2, h3, h4, test_known_answer_back]) (by decide)]
  decide

theorem test_pkcs7Pad :
    seen (fun t => (t.memRead 64 16, t.dlen)) (exec .pkcs7Pad (withSource [0x61, 0x62, 0x63]))
        = some (hexBytes 16 0x6162630d0d0d0d0d0d0d0d0d0d0d0d0d, 16)
      ∧ seen (fun t => t.dlen) (exec .pkcs7Pad (withSource katPlain)) = some 32 := by
  decide

theorem test_pkcs7Unpad :
    seen (fun t => (t.memRead 64 3, t.dlen)) (exec .pkcs7Unpad (withSource (hexBytes 16 0x6162630d0d0d0d0d0d0d0d0d0d0d0d0d)))
        = some ([0x61, 0x62, 0x63], 3)
      ∧ seen (fun t => t.status) (exec .pkcs7Unpad (withSource (hexBytes 16 0x030203))) = some 3 := by
  decide

/-- One block whose XOR with the initialisation vector is the plaintext of the known-answer vector (R123). -/
theorem test_cbcEnc :
    cbcEncrypt katKey katKey (hexBytes 16 0x00102030405060708090a0b0c0d0e0f0) true = .ok katCipher := by
  have h : xorBlock ((hexBytes 16 0x00102030405060708090a0b0c0d0e0f0).take 16) katKey = katPlain := by decide
  have hl : (hexBytes 16 0x00102030405060708090a0b0c0d0e0f0).length / 16 = 1 := by decide
  unfold cbcEncrypt
  rw [if_neg (by decide), if_neg (by decide)]
  simp only [if_true, hl, encryptChain, h, test_known_answer, List.append_nil]

theorem test_cbcEnc_errors :
    seen (fun t => t.status) (exec (.cbcEnc true) (withSource [0x61, 0x62, 0x63])) = some 2
      ∧ seen (fun t => t.status) (exec (.cbcEnc false) { withSource [] with iptr := 1009 }) = some 4 := by
  decide

/-- The known-answer ciphertext as one chained block: unpadded it gives the plaintext XOR the initialisation vector;
padded, that block ends in `f0`, which is no padding (R124). -/
theorem test_cbcDec :
    cbcDecrypt katKey katKey katCipher true = .ok (hexBytes 16 0x00102030405060708090a0b0c0d0e0f0)
      ∧ cbcDecrypt katKey katKey katCipher false = .error .paddingError := by
  have h : decryptChain (expandKey katKey) 1 katKey katCipher
      = .ok (hexBytes 16 0x00102030405060708090a0b0c0d0e0f0) := by
    have h16 : katCipher.take 16 = katCipher := by decide
    simp only [decryptChain, h16, test_known_answer_back]
    decide
  have hl : katCipher.length / 16 = 1 := by decide
  unfold cbcDecrypt
  rw [if_neg (by decide), if_neg (by decide), hl, h, if_neg (by decide), if_neg (by decide)]
  decide

theorem test_cbcDec_errors :
    seen (fun t => t.status) (exec (.cbcDec false) (withSource [])) = some 2
      ∧ seen (fun t => t.status) (exec (.cbcDec true) { withSource katCipher with kptr := 1009 }) = some 4 := by
  decide

/-! ### Witnesses: an input that meets the hypotheses of each statement, clause by clause -/

/-- `base` with the host's next primitives. -/
def asking (ops : List HostOp) : State := { base with pending := ops }

theorem witness_DecodeOfEncode : (Instr.addRoundKey 10).wf = true ∧ (Instr.cbcDec true).wf = true := by decide

theorem witness_EncodeOfDecode :
    decode 0x00000a38 = .ok (.addRoundKey 10) ∧ decode 0x00001062 = .ok (.cbcEnc true) := by
  decide

theorem witness_DecoderMatchesOpcodeTable :
    decode 0x00000a38 = .ok (.addRoundKey 10)
      ∧ (0x00000a38 : Word) &&& (opcodeRow (.addRoundKey 0)).mask = (opcodeRow (.addRoundKey 0)).value
      ∧ (opcodeRow (.addRoundKey 0)).mnemonic = "ADD_ROUND_KEY" ∧ (rField 0x00000a38).toNat ≤ 10
      ∧ (0x00001063 : Word) &&& (opcodeRow (.cbcDec false)).mask = (opcodeRow (.cbcDec false)).value
      ∧ (opcodeRow (.cbcDec false)).mnemonic ≠ "ADD_ROUND_KEY" := by
  decide

/-- A word for each way to be no command, and the state of the second part. -/
theorem witness_IllegalWords :
    opField 0x00000064 = 0x64 ∧ zeroField 0x00002011 ≠ 0 ∧ (opField 0x00000111 ≠ 0x38 ∧ rField 0x00000111 ≠ 0)
      ∧ (opField 0x00000b38 = 0x38 ∧ 11 ≤ (rField 0x00000b38).toNat)
      ∧ (opField 0x00001011 ≠ 0x62 ∧ opField 0x00001011 ≠ 0x63 ∧ npField 0x00001011 = true)
      ∧ (asking [.writeReg 0 0x64]).pending = .writeReg 0x000 0x64 :: [] ∧ base.fatal = false
      ∧ decode 0x00000064 = .error .unassignedOp := by
  decide

theorem witness_StepRunsDecodedCommand :
    (asking [.writeReg 0 0x11]).pending = .writeReg 0x000 0x11 :: [] ∧ decode 0x11 = .ok .gfMul := by
  decide

theorem witness_IdleStepChangesNothing : base.pending = [] := rfl

/-- The first and last offset of each group of R39. -/
theorem witness_HostRegisterReads :
    ∀ off ∈ [0x000, 0x014, 0x020, 0x03C, 0x040 + 4 * (0 : Fin 4).val, 0x040 + 4 * (3 : Fin 4).val,
        0x100 + 4 * (0 : Fin 44).val, 0x100 + 4 * (43 : Fin 44).val],
      (asking [.readReg off]).pending = .readReg off :: [] ∧ (regAt off).isSome = true := by
  decide

theorem witness_HostRegisterWrites :
    ∀ reg ∈ [RegName.status, .r, .a, .b, .rklen, .dlen, .stcol 3, .rk 43],
      reg ≠ .cmd ∧ (asking [.writeReg reg.offset 5]).pending = .writeReg reg.offset 5 :: [] := by
  decide

theorem witness_HostMemoryReadsAndWrites :
    1023 < base.memSize ∧ (asking [.writeMem 1023 7]).pending = .writeMem 1023 7 :: []
      ∧ (asking [.readMem 1023]).pending = .readMem 1023 :: [] := by
  decide

theorem witness_OnlyUnlistedHostAccessRefused :
    (HostOp.readMem 1024).wf base.memSize = false ∧ (HostOp.readMem 1023).wf base.memSize = true
      ∧ (asking [.readMem 1023, .reset]).hostOk := by
  unfold State.hostOk
  decide

theorem witness_HostAccessIgnoresStatus :
    (asking [.writeReg 0x008 5]).pending = .writeReg 0x008 5 :: [] ∧ (HostOp.writeReg 0x008 5).wf base.memSize = true
      ∧ (∀ w, HostOp.writeReg 0x008 5 ≠ .writeReg 0x000 w) ∧ HostOp.writeReg 0x008 5 ≠ .reset
      ∧ ∀ off, HostOp.writeReg 0x008 5 ≠ .readReg off := by
  refine ⟨rfl, rfl, fun w h => ?_, fun h => ?_, fun off h => ?_⟩ <;> cases h

theorem witness_LockedRefusesEveryWord :
    lockedState.fatal = true
      ∧ { lockedState with pending := [.writeReg 0 0x11] }.pending = .writeReg 0x000 0x11 :: []
      ∧ (HostOp.readMem 0).wf lockedState.memSize = true := by
  decide

/-- An input for every clause of R147, each at the edge of the one before. -/
theorem witness_CheckOrder :
    lockedState.fatal = true ∧ base.fatal = false ∧ decode 0x00000b38 = .error .roundKeyOutOfRange
      ∧ (decode 0x30 = .ok .stLoad ∧ lengthTest .stLoad (withSource (hexBytes 15 0)))
      ∧ (¬ lengthTest .stLoad (withSource katPlain)
        ∧ sourceRangeTest .stLoad { withSource katPlain with sptr := 1009 })
      ∧ (¬ sourceRangeTest .stLoad { withSource katPlain with sptr := 1008 }
        ∧ storedResult .stLoad (withSource katPlain) = none)
      ∧ storedResult .pkcs7Unpad (withSource katPlain) = some (.error .paddingError)
      ∧ storedResult .stStore base = some (.ok (stateToBytes base.st))
      ∧ ({ base with dptr := 1009 } : State).memSize
          < ({ base with dptr := 1009 } : State).dptr.toNat + (stateToBytes base.st).length
      ∧ ({ base with dptr := 1008 } : State).dptr.toNat + (stateToBytes base.st).length
          ≤ ({ base with dptr := 1008 } : State).memSize := by
  refine ⟨rfl, rfl, by decide, ⟨by decide, ?_⟩, ⟨?_, ?_⟩, ⟨?_, rfl⟩, ?_, rfl, by decide, by decide⟩
  · show _ ≠ _
    decide
  · show ¬ (_ ≠ _)
    decide
  · show _ < _
    decide
  · show ¬ (_ < _)
    decide
  · show some _ = some _
    decide

theorem witness_LengthErrorExactly :
    (Instr.addRoundKey 10).wf = true ∧ ({ base with rklen := 43 } : State).fatal = false
      ∧ (∃ t, exec (.addRoundKey 10) { base with rklen := 43 } = .next t)
      ∧ lengthTest (.addRoundKey 10) { base with rklen := 43 }
      ∧ ¬ lengthTest (.addRoundKey 10) { base with rklen := 44 } := by
  refine ⟨rfl, rfl, ⟨_, rfl⟩, ?_, ?_⟩
  · show _ < _
    decide
  · show ¬ (_ < _)
    decide

theorem witness_ErrorsChangeStatusOnly :
    ∃ t, exec .stStore { base with dptr := 1009 } = .next t ∧ t.err ≠ 0 :=
  ⟨_, rfl, by decide⟩

/-- Two states that differ in `B`, which `GF_DBL` does not read; two that differ outside the key; and two in which
`KEY_EXPAND` ends in an error. -/
theorem witness_CommandReadsAndWrites :
    base.sizeOk ∧ base.memSize = ({ base with b := 1 } : State).memSize
      ∧ base.fatal = ({ base with b := 1 } : State).fatal ∧ SameReads .gfDbl base { base with b := 1 }
      ∧ base ≠ { base with b := 1 } ∧ (∃ t, exec .gfDbl base = .next t ∧ t.err = 0)
      ∧ SameReads .keyExpand (withSource [1]) { withSource [1] with slen := 7 }
      ∧ SameReads .keyExpand base { base with b := 1 } ∧ ∃ t, exec .keyExpand base = .next t ∧ t.err ≠ 0 := by
  exact ⟨⟨by decide, by decide⟩, rfl, rfl, rfl, by decide, ⟨_, rfl, by decide⟩, ⟨rfl, rfl, fun k _ => rfl⟩,
    ⟨rfl, rfl, fun k _ => rfl⟩, _, rfl, by decide⟩

theorem witness_ResetValues :
    (asking [.reset]).pending = .reset :: [] ∧ ∃ t, step (asking [.reset]) = .next t := ⟨rfl, _, rfl⟩

theorem witness_HostResetAlone :
    (asking [.reset]).pending = .reset :: []
      ∧ lockedState.fatal = true ∧ ∃ t, step { lockedState with pending := [.reset] } = .next t ∧ t.fatal = false :=
  ⟨rfl, rfl, _, rfl, rfl⟩

theorem witness_MemoryFormPreserved :
    (asking [.writeMem 1023 7]).memOk ∧ ∃ t, step (asking [.writeMem 1023 7]) = .next t ∧ t.mem = [(1023, 7)] :=
  ⟨⟨rfl, rfl⟩, _, rfl, rfl⟩

theorem witness_StatusStaysLegal :
    statusLegal (asking [.writeReg 0 0]).status ∧ ∃ t, step (asking [.writeReg 0 0]) = .next t ∧ t.status = 1 :=
  ⟨⟨by decide, by decide⟩, _, rfl, by decide⟩

theorem witness_FatalNeverSet :
    base.fatal = false ∧ (fun _ : State => (Except.error .invariantFault : Except CommandError State)) base
        = .error .invariantFault
      ∧ (∃ t, step (asking [.writeReg 0 0x21]) = .next t)
      ∧ lockedState.fatal = true ∧ ∃ t, step { lockedState with pending := [.reset] } = .next t ∧ t.fatal = false :=
  ⟨rfl, rfl, ⟨_, rfl⟩, rfl, _, rfl, rfl⟩

theorem witness_MemSizeFixed : ∃ t, step (asking [.writeReg 0 0x10]) = .next t := ⟨_, rfl⟩

theorem witness_GfDblResult : base.fatal = false ∧ lockedState.fatal = true := by decide

theorem witness_GfMulResult : base.fatal = false ∧ lockedState.fatal = true := by decide

theorem witness_MultiplyFieldLaws : multiply 0x00 0x57 = 0 ∧ (0x57 : Byte) ≠ 0 := by decide

theorem witness_PowerIsRepeatedProduct : (1 : Nat) ≤ 1 ∧ (0x57 : Byte) ≠ 0 := by decide

theorem witness_GfPowResult :
    base.fatal = false ∧ lockedState.fatal = true ∧ ({ base with a := 3 } : State).a ≠ 0 ∧ 1 ≤ 256 := by
  decide

theorem witness_GfInvResult :
    base.fatal = false ∧ lockedState.fatal = true ∧ base.a = 0 ∧ ({ base with a := 3 } : State).a ≠ 0 := by
  decide

theorem witness_SboxFwdResult : base.fatal = false ∧ lockedState.fatal = true := by decide

theorem witness_SboxInvResult : base.fatal = false ∧ lockedState.fatal = true := by decide

theorem witness_StLoadResult :
    base.fatal = false ∧ lockedState.fatal = true ∧ ({ base with slen := 15 } : State).slen ≠ 16
      ∧ (withSource katPlain).slen = 16 ∧ base.memSize < ({ base with sptr := 1009 } : State).sptr.toNat + 16
      ∧ ({ base with sptr := 1008 } : State).sptr.toNat + 16 ≤ base.memSize := by
  decide

theorem witness_StStoreResult :
    base.fatal = false ∧ lockedState.fatal = true ∧ base.memSize < ({ base with dptr := 1009 } : State).dptr.toNat + 16
      ∧ ({ base with dptr := 1008 } : State).dptr.toNat + 16 ≤ base.memSize := by
  decide

theorem witness_SubBytesResult : base.fatal = false ∧ lockedState.fatal = true := by decide

theorem witness_InvSubBytesResult : base.fatal = false ∧ lockedState.fatal = true := by decide

theorem witness_ShiftRowsResult : base.fatal = false ∧ lockedState.fatal = true := by decide

theorem witness_InvShiftRowsResult : base.fatal = false ∧ lockedState.fatal = true := by decide

theorem witness_MixColumnsResult : base.fatal = false ∧ lockedState.fatal = true := by decide

theorem witness_InvMixColumnsResult : base.fatal = false ∧ lockedState.fatal = true := by decide

theorem witness_AddRoundKeyResult :
    10 < (11 : BitVec 4).toNat ∧ (10 : BitVec 4).toNat ≤ 10 ∧ base.fatal = false ∧ lockedState.fatal = true
      ∧ ({ base with rklen := 43 } : State).rklen.toNat < 4 * (10 : BitVec 4).toNat + 4
      ∧ 4 * (10 : BitVec 4).toNat + 4 ≤ ({ base with rklen := 44 } : State).rklen.toNat
      ∧ 4 * (10 : BitVec 4).toNat + (3 : Fin 4).val < 44 := by
  decide

theorem witness_KeyExpandResult :
    base.fatal = false ∧ lockedState.fatal = true ∧ ({ base with klen := 17 } : State).klen ≠ 16
      ∧ (withSource []).klen = 16
      ∧ base.memSize < ({ base with kptr := 1009 } : State).kptr.toNat + 16
      ∧ ({ base with kptr := 1008 } : State).kptr.toNat + 16 ≤ base.memSize
      ∧ (4 ≤ 4 ∧ 4 < 44 ∧ 4 % 4 = 0) ∧ (4 ≤ 43 ∧ 43 < 44 ∧ 43 % 4 ≠ 0) := by
  decide

theorem witness_RoundKeyDeterminesSchedule :
    katKey.length = 16 ∧ (10 : Nat) ≤ 10 ∧ roundKey (expandKey katKey) 10 = roundKey (expandKey katKey) 10 :=
  ⟨rfl, le_rfl, rfl⟩

theorem witness_BlkEncResult :
    base.fatal = false ∧ lockedState.fatal = true ∧ ({ blockState katPlain with slen := 15 } : State).slen ≠ 16
      ∧ ({ blockState katPlain with rklen := 43 } : State).rklen ≠ 44 ∧ (blockState katPlain).slen = 16
      ∧ (blockState katPlain).rklen = 44
      ∧ base.memSize < ({ base with sptr := 1009 } : State).sptr.toNat + 16
      ∧ ({ base with sptr := 1008 } : State).sptr.toNat + 16 ≤ base.memSize := by
  decide

theorem witness_BlkDecResult :
    base.fatal = false ∧ lockedState.fatal = true ∧ ({ blockState katCipher with slen := 15 } : State).slen ≠ 16
      ∧ ({ blockState katCipher with rklen := 43 } : State).rklen ≠ 44 ∧ (blockState katCipher).slen = 16
      ∧ (blockState katCipher).rklen = 44
      ∧ base.memSize < ({ base with dptr := 1009 } : State).dptr.toNat + 16
      ∧ ({ base with dptr := 1008 } : State).dptr.toNat + 16 ≤ base.memSize := by
  decide

theorem witness_BlockRoundTrip : IsBlock katPlain := rfl

theorem witness_BlockCommandsEqualPrimitives :
    (blockState katPlain).fatal = false ∧ (blockState katPlain).slen = 16 ∧ (blockState katPlain).rklen = 44
      ∧ (blockState katPlain).sptr.toNat + 16 ≤ (blockState katPlain).memSize
      ∧ (blockState katPlain).dptr.toNat + 16 ≤ (blockState katPlain).memSize := by
  decide

theorem witness_BlockCommandsKeepGrid :
    (∃ t, exec .blkEnc (blockState katPlain) = .next t) ∧ ∃ t, exec (.cbcDec true) (withSource katCipher) = .next t :=
  ⟨⟨_, rfl⟩, _, rfl⟩

/-- The source and the destination range at the top of `MEM` and one Byte beyond, for `SLEN` 16 and 0. -/
theorem witness_Pkcs7PadResult :
    base.fatal = false ∧ lockedState.fatal = true ∧ 16 - (withSource katPlain).slen.toNat % 16 = 16
      ∧ base.memSize < ({ base with sptr := 1009 } : State).sptr.toNat + (withSource katPlain).slen.toNat
      ∧ base.memSize < ({ base with dptr := 993 } : State).dptr.toNat + ((withSource katPlain).slen.toNat + 16)
      ∧ ({ base with sptr := 1008 } : State).sptr.toNat + (withSource katPlain).slen.toNat ≤ base.memSize
      ∧ ({ base with dptr := 992 } : State).dptr.toNat + ((withSource katPlain).slen.toNat + 16) ≤ base.memSize := by
  decide

/-- A trailer of one Byte, one of sixteen, and a sequence without one. -/
theorem witness_Pkcs7UnpadResult :
    base.fatal = false ∧ lockedState.fatal = true ∧ base.memSize < ({ base with sptr := 1009 } : State).sptr.toNat + 16
      ∧ (withSource katPlain).sptr.toNat + (withSource katPlain).slen.toNat ≤ base.memSize
      ∧ (∀ k, 16 - 1 ≤ k → k < 16 → (withSource (hexBytes 16 0x01)).byteAt k = BitVec.ofNat 8 1)
      ∧ (∀ k, k < 16 → (withSource (List.replicate 16 0x10)).byteAt k = BitVec.ofNat 8 16)
      ∧ base.memSize < ({ base with dptr := 1010 } : State).dptr.toNat + (16 - 1)
      ∧ ({ base with dptr := 1009 } : State).dptr.toNat + (16 - 1) ≤ base.memSize
      ∧ ¬ ∃ n : Nat, 1 ≤ n ∧ n ≤ 16 ∧ n ≤ (withSource []).slen.toNat := by
  refine ⟨by decide, by decide, by decide, by decide, by decide, by decide, by decide, by decide, ?_⟩
  rintro ⟨n, h1, -, h2⟩
  have h3 : n ≤ 0 := h2
  omega

theorem witness_PaddingRoundTrip :
    (1 : Nat) ≤ 1 ∧ (255 : Nat) ≤ 255 ∧ pkcs7Unpad [0x61, 0x62, 0x01] 1 = .ok [0x61, 0x62] := by decide

/-- Each length test at its edge, each range at its edge, and both values of `np`. -/
theorem witness_CbcEncResult :
    base.fatal = false ∧ lockedState.fatal = true ∧ lengthTest (.cbcEnc false) { withSource katPlain with klen := 15 }
      ∧ lengthTest (.cbcEnc true) (withSource (hexBytes 17 0)) ∧ ¬ lengthTest (.cbcEnc true) (withSource katPlain)
      ∧ ¬ lengthTest (.cbcEnc false) (withSource (hexBytes 17 0))
      ∧ sourceRangeTest (.cbcEnc false) { withSource katPlain with iptr := 1009 }
      ∧ ¬ sourceRangeTest (.cbcEnc false) { withSource katPlain with iptr := 1008 }
      ∧ base.memSize < ({ base with dptr := 993 } : State).dptr.toNat + 32
      ∧ ({ base with dptr := 992 } : State).dptr.toNat + 32 ≤ base.memSize := by
  simp only [lengthTest, sourceRangeTest]
  decide

/-- As for `CBC_ENC`; a decrypted sequence with no padding, and one that is all padding. -/
theorem witness_CbcDecResult :
    base.fatal = false ∧ lockedState.fatal = true ∧ lengthTest (.cbcDec true) (withSource (hexBytes 17 0))
      ∧ lengthTest (.cbcDec false) (withSource []) ∧ ¬ lengthTest (.cbcDec false) (withSource katCipher)
      ∧ sourceRangeTest (.cbcDec true) { withSource katCipher with kptr := 1009 }
      ∧ ¬ sourceRangeTest (.cbcDec true) { withSource katCipher with kptr := 1008 }
      ∧ pkcs7Unpad (hexBytes 16 0x00102030405060708090a0b0c0d0e0f0) 16 = .error .paddingError
      ∧ pkcs7Unpad (List.replicate 16 0x10) 16 = .ok []
      ∧ base.memSize < ({ base with dptr := 1009 } : State).dptr.toNat + 16
      ∧ ({ base with dptr := 1024 } : State).dptr.toNat + 0 ≤ base.memSize := by
  simp only [lengthTest, sourceRangeTest]
  decide

theorem witness_CbcRoundTrip :
    katKey.length = 16 ∧ 0 < katPlain.length ∧ katPlain.length % 16 = 0 := by decide

/-- A message of two blocks whose first ciphertext block is changed in one bit. -/
theorem witness_ChangedCiphertextBlock :
    katKey.length = 16 ∧ (katCipher ++ katCipher).length % 16 = 0 ∧ 16 * (0 + 1) < (katCipher ++ katCipher).length
      ∧ (hexBytes 16 1).length = 16 ∧ (hexBytes 16 1) ≠ List.replicate 16 0
      ∧ (xorBlock katCipher (hexBytes 16 1) ++ katCipher).length = (katCipher ++ katCipher).length
      ∧ blockOf (xorBlock katCipher (hexBytes 16 1) ++ katCipher) 0
          = xorBlock (blockOf (katCipher ++ katCipher) 0) (hexBytes 16 1)
      ∧ ∀ j, j ≠ 0 → blockOf (xorBlock katCipher (hexBytes 16 1) ++ katCipher) j = blockOf (katCipher ++ katCipher) j := by
  refine ⟨by decide, by decide, by decide, by decide, by decide, by decide, by decide, fun j hj => ?_⟩
  have h1 : (xorBlock katCipher (hexBytes 16 1)).length = 16 := by decide
  have h2 : katCipher.length = 16 := by decide
  have h3 : (xorBlock katCipher (hexBytes 16 1)).drop (16 * j) = [] := List.drop_of_length_le (by omega)
  have h4 : katCipher.drop (16 * j) = [] := List.drop_of_length_le (by omega)
  rw [blockOf, blockOf, List.drop_append, List.drop_append, h1, h2, h3, h4]

theorem witness_DroppedCiphertextBlock :
    katKey.length = 16 ∧ (katCipher ++ katCipher).length % 16 = 0 ∧ 16 * 1 < (katCipher ++ katCipher).length
      ∧ 16 < (katCipher ++ katCipher).length ∧ 16 * (0 + 1) < (katCipher ++ katCipher).length := by
  decide

theorem witness_ChainingSplits :
    katKey.length = 16 ∧ 0 < katPlain.length ∧ katPlain.length % 16 = 0 := by decide

end Sys2Proof.Tests
end

section
/-! What a command reads and writes (10_state.md R22). The bodies of one command in two states that agree on what it
reads are followed side by side: every test comes out alike in both, so they end in one error or in writes that the
table of R22 relates. -/

namespace Sys2Proof.Machine

/-! ### `STATUS.ERR` after a command -/

@[simp] theorem errField_statusWord (c : BitVec 4) (f : Bool) : errField (statusWord c f) = c := by
  cases f <;> revert c <;> decide

@[simp] theorem State.raise_err (s : State) (e : CommandError) : (s.raise e).err = e.code :=
  errField_statusWord _ _

@[simp] theorem State.succeed_err (s : State) : s.succeed.err = 0 := errField_statusWord _ _

theorem CommandError.code_ne_zero (e : CommandError) : e.code ≠ 0 := by
  cases e <;> decide

/-! ### What the operand forms read -/

theorem State.inMem_congr {s u : State} {p q : Word} (hm : s.memSize = u.memSize) (hp : p = q) (n : Nat) :
    s.inMem p n = u.inMem q n := by
  rw [State.inMem, State.inMem, hm, hp]

theorem State.keyBytes_congr {s u : State} (hp : s.kptr = u.kptr) (hb : SameBytes s u s.kptr.toNat 16) :
    s.keyBytes = u.keyBytes := by
  rw [State.keyBytes, State.keyBytes, State.memRead_congr hb, hp]

theorem State.ivBytes_congr {s u : State} (hp : s.iptr = u.iptr) (hb : SameBytes s u s.iptr.toNat 16) :
    s.ivBytes = u.ivBytes := by
  rw [State.ivBytes, State.ivBytes, State.memRead_congr hb, hp]

theorem State.sourceBlock_congr {s u : State} (hp : s.sptr = u.sptr) (hb : SameBytes s u s.sptr.toNat 16) :
    s.sourceBlock = u.sourceBlock := by
  rw [State.sourceBlock, State.sourceBlock, State.memRead_congr hb, hp]

theorem State.sourceBytes_congr {s u : State} (hp : s.sptr = u.sptr) (hn : s.slen = u.slen)
    (hb : SameBytes s u s.sptr.toNat s.slen.toNat) : s.sourceBytes = u.sourceBytes := by
  rw [State.sourceBytes, State.sourceBytes, State.memRead_congr hb, hp, hn]

theorem State.blockLengthsOk_congr {s u : State} (hn : s.slen = u.slen) (hk : s.rklen = u.rklen) :
    s.blockLengthsOk = u.blockLengthsOk := by
  rw [State.blockLengthsOk, State.blockLengthsOk, hn, hk]

theorem State.keyIvLengthsOk_congr {s u : State} (hk : s.klen = u.klen) (hi : s.ilen = u.ilen) :
    s.keyIvLengthsOk = u.keyIvLengthsOk := by
  rw [State.keyIvLengthsOk, State.keyIvLengthsOk, hk, hi]

theorem State.cbcSourcesInMem_congr {s u : State} (hm : s.memSize = u.memSize) (hk : s.kptr = u.kptr)
    (hi : s.iptr = u.iptr) (hp : s.sptr = u.sptr) (hn : s.slen = u.slen) :
    s.cbcSourcesInMem = u.cbcSourcesInMem := by
  rw [State.cbcSourcesInMem, State.cbcSourcesInMem, State.inMem_congr hm hk, State.inMem_congr hm hi,
    State.inMem_congr hm hp, hn]

/-- A round key is its four Words of the schedule (43_key_schedule.md R105). -/
theorem roundKey_congr {w x : Schedule} {r : Nat}
    (h : ∀ c : Nat, c < 4 → Schedule.word w (4 * r + c) = Schedule.word x (4 * r + c)) :
    roundKey w r = roundKey x r :=
  congrArg Vector.ofFn (funext (fun c => h c.val c.isLt))

/-- A write of a byte sequence puts each Byte at its address, whatever was there. -/
theorem State.byteAt_memWrite_inside (s : State) (x : Nat) (bytes : List Byte) {k : Nat} (hk : k < bytes.length) :
    (s.memWrite x bytes).byteAt (x + k) = bytes[k] := by
  rw [← State.getElem_memRead _ x bytes.length k (by simpa using hk)]
  exact List.getElem_of_eq (State.memRead_memWrite s x bytes) _

/-! ### Two bodies side by side -/

/-- Two verdicts of a command's body agree: the same error, or writes that stand in the relation `R`. -/
inductive Agree (R : State → State → Prop) : Except CommandError State → Except CommandError State → Prop where
  | error (e : CommandError) : Agree R (.error e) (.error e)
  | ok {a b : State} (h : R a b) : Agree R (.ok a) (.ok b)

/-- A test that comes out alike in both states. -/
theorem Agree.ite {R : State → State → Prop} {c d : Prop} [Decidable c] [Decidable d]
    {x x' y y' : Except CommandError State} (hcd : c = d) (hx : Agree R x x') (hy : Agree R y y') :
    Agree R (if c then x else y) (if d then x' else y') := by
  subst hcd
  by_cases hc : c
  · rw [if_pos hc, if_pos hc]
    exact hx
  · rw [if_neg hc, if_neg hc]
    exact hy

/-- Bodies that agree leave states that agree: one error taken in both, or both commands' writes and `STATUS.ERR`
zero. -/
theorem Agree.afterCommand {R : State → State → Prop} {s u : State} {body : State → Except CommandError State}
    (hf : s.fatal = u.fatal) (h : Agree R (body s) (body u)) :
    (∃ e, s.afterCommand body = s.raise e ∧ u.afterCommand body = u.raise e)
      ∨ ∃ a b, R a b ∧ s.afterCommand body = a.succeed ∧ u.afterCommand body = b.succeed := by
  cases hs : s.fatal with
  | true => exact .inl ⟨_, State.afterCommand_locked hs body, State.afterCommand_locked (hf ▸ hs) body⟩
  | false =>
    have hu : u.fatal = false := hf ▸ hs
    generalize hx : body s = x at h
    generalize hy : body u = y at h
    cases h with
    | error e => exact .inl ⟨e, State.afterCommand_error hs hx, State.afterCommand_error hu hy⟩
    | ok hR => exact .inr ⟨_, _, hR, State.afterCommand_ok hs hx, State.afterCommand_ok hu hy⟩

/-- The writes `a` of a command in `s` and `b` of the same command in `u` keep to the command's row of R22. -/
def RowKept (i : Instr) (s u a b : State) : Prop :=
  SameWrites i a.succeed b.succeed ∧ WritesOnly i s a.succeed ∧ WritesOnly i u b.succeed

/-- A length that fits in `MEM` fits in `DLEN` (00_scope.md R6). -/
theorem State.sizeOk.toNat_ofNat {s : State} (h : s.sizeOk) {n : Nat} (hn : n ≤ s.memSize) :
    (BitVec.ofNat 32 n).toNat = n := by
  obtain ⟨-, hmax⟩ := h
  rw [BitVec.toNat_ofNat, Nat.mod_eq_of_lt (by omega)]

/-- The frame of a store, in the row that `ST_STORE` shares with every storing command. -/
theorem writesOnly_store {s : State} (hsize : s.sizeOk) {out : List Byte}
    (hfit : s.dptr.toNat + out.length ≤ s.memSize) :
    WritesOnly .stStore s
      (State.succeed { s.memWrite s.dptr.toNat out with dlen := BitVec.ofNat 32 out.length }) := by
  refine ⟨rfl, fun x hx => State.byteAt_memWrite_outside s out ?_⟩
  rwa [State.succeed_dlen, hsize.toNat_ofNat (by omega)] at hx

/-- One result stored in two states with the same `DPTR`. The seven storing commands have one row in R22, so this
serves each of them. -/
theorem agree_storeResult {s u : State} (hsize : s.sizeOk) (hm : s.memSize = u.memSize) (hd : s.dptr = u.dptr)
    (out : List Byte) : Agree (RowKept .stStore s u) (s.storeResult out) (u.storeResult out) := by
  have hsizeu : u.sizeOk := by rwa [State.sizeOk, ← hm]
  by_cases hfit : s.dptr.toNat + out.length ≤ s.memSize
  · have hfitu : u.dptr.toNat + out.length ≤ u.memSize := by rwa [← hm, ← hd]
    rw [State.storeResult_ok hfit, State.storeResult_ok hfitu]
    refine .ok ⟨⟨rfl, fun k hk => ?_⟩, writesOnly_store hsize hfit, writesOnly_store hsizeu hfitu⟩
    rw [State.succeed_dlen, hsize.toNat_ofNat (by omega)] at hk
    calc (s.memWrite s.dptr.toNat out).byteAt (s.dptr.toNat + k)
        = out[k] := State.byteAt_memWrite_inside s _ out hk
      _ = (u.memWrite s.dptr.toNat out).byteAt (s.dptr.toNat + k) := (State.byteAt_memWrite_inside u _ out hk).symm
      _ = (u.memWrite u.dptr.toNat out).byteAt (s.dptr.toNat + k) := by rw [hd]
  · rw [State.storeResult_error (by omega), State.storeResult_error (by rw [← hm, ← hd]; omega)]
    exact .error _

/-! ### Every command -/

/-- Every command is a body, and the body agrees in two states that agree on what the command reads. -/
theorem exec_bodies_agree (i : Instr) {s u : State} (hsize : s.sizeOk) (hm : s.memSize = u.memSize)
    (hr : SameReads i s u) :
    ∃ body, (∀ t, exec i t = runCommand body t) ∧ Agree (RowKept i s u) (body s) (body u) := by
  cases i with
  | gfDbl => exact ⟨_, fun _ => rfl, .ok ⟨congrArg double hr, rfl, rfl⟩⟩
  | gfMul =>
    obtain ⟨ha, hb⟩ := hr
    exact ⟨_, fun _ => rfl, .ok ⟨congrArg₂ multiply ha hb, rfl, rfl⟩⟩
  | gfPow =>
    obtain ⟨ha, hb⟩ := hr
    exact ⟨_, fun _ => rfl, .ok ⟨congrArg₂ power ha (congrArg BitVec.toNat hb), rfl, rfl⟩⟩
  | gfInv => exact ⟨_, fun _ => rfl, .ok ⟨congrArg inverse hr, rfl, rfl⟩⟩
  | sboxFwd => exact ⟨_, fun _ => rfl, .ok ⟨congrArg forwardSbox hr, rfl, rfl⟩⟩
  | sboxInv =>
    have hv : inverseSbox s.a = inverseSbox u.a := congrArg inverseSbox hr
    refine ⟨_, fun _ => rfl, ?_⟩
    rw [hv]
    cases inverseSbox u.a with
    | ok v => exact .ok ⟨rfl, rfl, rfl⟩
    | error e => exact .error e
  | stLoad =>
    obtain ⟨hp, hn, hb⟩ := hr
    refine ⟨_, fun _ => rfl, .ite (by rw [hn]) (.error _) (.ite ?_ (.ok ⟨?_, rfl, rfl⟩) (.error _))⟩
    · rw [State.inMem_congr hm hp]
    · exact congrArg bytesToState (State.sourceBlock_congr hp hb)
  | stStore =>
    obtain ⟨hst, hd⟩ := hr
    refine ⟨_, fun _ => rfl, ?_⟩
    rw [hst]
    exact agree_storeResult hsize hm hd _
  | subBytes => exact ⟨_, fun _ => rfl, .ok ⟨congrArg subBytes hr, rfl, rfl⟩⟩
  | invSubBytes =>
    have hg : invSubBytes s.st = invSubBytes u.st := congrArg invSubBytes hr
    refine ⟨_, fun _ => rfl, ?_⟩
    rw [hg]
    cases invSubBytes u.st with
    | ok g => exact .ok ⟨rfl, rfl, rfl⟩
    | error e => exact .error e
  | shiftRows => exact ⟨_, fun _ => rfl, .ok ⟨congrArg shiftRows hr, rfl, rfl⟩⟩
  | invShiftRows => exact ⟨_, fun _ => rfl, .ok ⟨congrArg invShiftRows hr, rfl, rfl⟩⟩
  | mixColumns => exact ⟨_, fun _ => rfl, .ok ⟨congrArg mixColumns hr, rfl, rfl⟩⟩
  | invMixColumns => exact ⟨_, fun _ => rfl, .ok ⟨congrArg invMixColumns hr, rfl, rfl⟩⟩
  | addRoundKey r =>
    obtain ⟨hst, hk, hw⟩ := hr
    exact ⟨_, fun _ => rfl, .ite rfl (.error _) (.ite (by rw [hk]) (.error _)
      (.ok ⟨congrArg₂ addRoundKey hst (roundKey_congr hw), rfl, rfl⟩))⟩
  | keyExpand =>
    obtain ⟨hp, hn, hb⟩ := hr
    refine ⟨_, fun _ => rfl, .ite (by rw [hn]) (.error _) (.ite ?_ (.ok ⟨⟨?_, rfl⟩, rfl, rfl⟩) (.error _))⟩
    · rw [State.inMem_congr hm hp]
    · exact congrArg expandKey (State.keyBytes_congr hp hb)
  | blkEnc =>
    obtain ⟨hp, hn, hb, hk, hrk, hd⟩ := hr
    refine ⟨_, fun _ => rfl, .ite ?_ (.error _) (.ite ?_ (.error _) ?_)⟩
    · rw [State.blockLengthsOk_congr hn hk]
    · rw [State.inMem_congr hm hp]
    · rw [State.sourceBlock_congr hp hb, hrk]
      exact agree_storeResult hsize hm hd _
  | blkDec =>
    obtain ⟨hp, hn, hb, hk, hrk, hd⟩ := hr
    refine ⟨_, fun _ => rfl, .ite ?_ (.error _) (.ite ?_ (.error _) ?_)⟩
    · rw [State.blockLengthsOk_congr hn hk]
    · rw [State.inMem_congr hm hp]
    · rw [State.sourceBlock_congr hp hb, hrk]
      cases decryptBlock u.sourceBlock u.rk with
      | error e => exact .error e
      | ok out => exact agree_storeResult hsize hm hd out
  | pkcs7Pad =>
    obtain ⟨hp, hn, hb, hd⟩ := hr
    refine ⟨_, fun _ => rfl, .ite ?_ (.error _) ?_⟩
    · rw [State.inMem_congr hm hp, hn]
    · rw [State.sourceBytes_congr hp hn hb]
      exact agree_storeResult hsize hm hd _
  | pkcs7Unpad =>
    obtain ⟨hp, hn, hb, hd⟩ := hr
    refine ⟨_, fun _ => rfl, .ite ?_ (.error _) ?_⟩
    · rw [State.inMem_congr hm hp, hn]
    · rw [State.sourceBytes_congr hp hn hb]
      cases pkcs7Unpad u.sourceBytes blockSize with
      | error e => exact .error e
      | ok out => exact agree_storeResult hsize hm hd out
  | cbcEnc np =>
    obtain ⟨hkp, hkn, hip, hin, hp, hn, hd, hkb, hib, hb⟩ := hr
    refine ⟨_, fun _ => rfl, .ite ?_ (.error _) (.ite (by rw [hn]) (.error _) (.ite ?_ (.error _) ?_))⟩
    · rw [State.keyIvLengthsOk_congr hkn hin]
    · rw [State.cbcSourcesInMem_congr hm hkp hip hp hn]
    · rw [State.keyBytes_congr hkp hkb, State.ivBytes_congr hip hib, State.sourceBytes_congr hp hn hb]
      cases cbcEncrypt u.keyBytes u.ivBytes u.sourceBytes np with
      | error e => exact .error e
      | ok out => exact agree_storeResult hsize hm hd out
  | cbcDec np =>
    obtain ⟨hkp, hkn, hip, hin, hp, hn, hd, hkb, hib, hb⟩ := hr
    refine ⟨_, fun _ => rfl, .ite ?_ (.error _) (.ite (by rw [hn]) (.error _) (.ite ?_ (.error _) ?_))⟩
    · rw [State.keyIvLengthsOk_congr hkn hin]
    · rw [State.cbcSourcesInMem_congr hm hkp hip hp hn]
    · rw [State.keyBytes_congr hkp hkb, State.ivBytes_congr hip hib, State.sourceBytes_congr hp hn hb]
      cases cbcDecrypt u.keyBytes u.ivBytes u.sourceBytes np with
      | error e => exact .error e
      | ok out => exact agree_storeResult hsize hm hd out

/-- Settles O18: the bodies of the command agree in the two states, so both runs end in one error, or in writes that
keep to the command's row of R22. -/
theorem commandReadsAndWrites : Obligations.CommandReadsAndWrites := by
  intro i s u hsize hm hf hr
  obtain ⟨body, hexec, hagree⟩ := exec_bodies_agree i hsize hm hr
  refine ⟨s.afterCommand body, u.afterCommand body, hexec s, hexec u, ?_⟩
  obtain ⟨e, hs, hu⟩ | ⟨a, b, ⟨hsame, hs', hu'⟩, hs, hu⟩ := hagree.afterCommand hf
  · rw [hs, hu, State.raise_err, State.raise_err]
    have he := e.code_ne_zero
    exact ⟨rfl, fun h => absurd h he, fun h => absurd h he, fun _ => ⟨rfl, rfl⟩⟩
  · rw [hs, hu, State.succeed_err, State.succeed_err]
    exact ⟨rfl, fun _ => hsame, fun _ => ⟨hs', hu'⟩, fun h => absurd rfl h⟩

end Sys2Proof.Machine
end

section
/-! The state after power-on and after `HostReset` (10_state.md R23). -/

namespace Sys2Proof.Machine

/-- A step in which the host asks for `HostReset` performs it. -/
theorem step_reset {s : State} {rest : List HostOp} (h : s.pending = .reset :: rest) :
    step s = .next (s.start rest).hostReset := by
  rw [step, h]
  rfl

/-- An address that has not been written reads as its free power-on Byte (U1). -/
theorem State.byteAt_of_lookup_none {s : State} {a : Nat} (h : s.mem.lookup a = none) :
    s.byteAt a = Config.powerOnByte a := by
  rw [State.byteAt, Memory.read, h, Option.getD_none]

/-- Settles O19: the registers by the definition of the initial state, `MEM` because nothing is listed as written at
power-on and `HostReset` keeps what is listed. -/
theorem resetValues : Obligations.ResetValues := by
  have hgrid (r c : Fin 4) : State.reset.st[r][c] = 0 := by simp [State.reset]
  have hschedule (i : Fin 44) : State.reset.rk[i] = 0 := by simp [State.reset]
  refine ⟨hgrid, hschedule, rfl, rfl, rfl, rfl, rfl, rfl, rfl, rfl, rfl, rfl, rfl, rfl, by decide, by decide,
    fun a => State.byteAt_of_lookup_none rfl, fun s t rest hp ht a => ?_⟩
  rw [step_reset hp] at ht
  cases ht
  rw [State.byteAt, State.byteAt, State.hostReset_mem, State.start_mem]

end Sys2Proof.Machine
end

section
/-! The listed host primitives and `STATUS` (20_memory.md R40). A primitive on a listed register or an address of `MEM`
is one update of the state, said once per primitive. Only a write to `CMD` and `HostReset` change `STATUS`, and of the
others only a register read can see it. -/

namespace Sys2Proof.Machine

/-! ### The register map -/

/-- Only offset 0 is `CMD`. -/
theorem eq_zero_of_regAt_cmd {off : Nat} (h : regAt off = some .cmd) : off = 0 := by
  unfold regAt at h
  split at h
  case h_1 => rfl
  case h_15 => split_ifs at h <;> cases h
  all_goals cases h

/-- A listed offset is the offset of a register. -/
theorem exists_regAt_of_listed {off : Nat} (h : regOffsetListed off = true) : ∃ reg, regAt off = some reg := by
  simp only [regOffsetListed, Bool.and_eq_true, Bool.or_eq_true, beq_iff_eq, decide_eq_true_eq] at h
  unfold regAt
  split
  case h_15 =>
    split_ifs with haligned hcolumn hword
    · exact absurd h.1 haligned
    · exact ⟨_, rfl⟩
    · exact ⟨_, rfl⟩
    · simp only [imp_false] at *
      omega
  all_goals exact ⟨_, rfl⟩

/-! ### One primitive, one update -/

/-- A step in which the host writes a register other than `CMD`. -/
theorem step_writeReg {s : State} {rest : List HostOp} {off : Nat} {v : Word} {reg : RegName}
    (h : s.pending = .writeReg off v :: rest) (hreg : regAt off = some reg) (hcmd : reg ≠ .cmd) :
    step s = .next ((s.start rest).writeReg reg v) := by
  rw [step, h]
  simp only [hostOp, hostWriteReg, hreg]

/-- A step in which the host reads a register. -/
theorem step_readReg {s : State} {rest : List HostOp} {off : Nat} {reg : RegName}
    (h : s.pending = .readReg off :: rest) (hreg : regAt off = some reg) :
    step s = .next { s.start rest with returned := some (.reg ((s.start rest).readReg reg)) } := by
  simp only [step, h, hostOp, hostReadReg, hreg]

/-- A step in which the host writes a Byte of `MEM`. -/
theorem step_writeMem {s : State} {rest : List HostOp} {a : Nat} {b : Byte}
    (h : s.pending = .writeMem a b :: rest) (ha : a < s.memSize) :
    step s = .next ((s.start rest).memWrite a [b]) := by
  rw [step, h]
  exact if_pos ha

/-- A step in which the host reads a Byte of `MEM`. -/
theorem step_readMem {s : State} {rest : List HostOp} {a : Nat}
    (h : s.pending = .readMem a :: rest) (ha : a < s.memSize) :
    step s = .next { s.start rest with returned := some (.byte ((s.start rest).byteAt a)) } := by
  rw [step, h]
  exact if_pos ha

/-- What a register write does to the other elements does not depend on `STATUS`. -/
theorem State.writeReg_withStatus (s : State) (reg : RegName) (v status : Word) :
    State.writeReg { s with status := status } reg v = { s.writeReg reg v with status := status } := by
  cases reg <;> rfl

/-- Settles O12: each listed primitive is its one update, in the state with the other `STATUS` as well, and the update
commutes with the change of `STATUS`. -/
theorem hostAccessIgnoresStatus : Obligations.HostAccessIgnoresStatus := by
  intro s op rest hp hwf hcmd hreset
  cases op with
  | writeReg off v =>
    obtain ⟨reg, hreg⟩ := exists_regAt_of_listed hwf
    have hne : reg ≠ .cmd := by
      rintro rfl
      exact hcmd v (congrArg (HostOp.writeReg · v) (eq_zero_of_regAt_cmd hreg))
    refine ⟨_, step_writeReg hp hreg hne, State.writeReg_status _ reg v, fun _ status => ?_⟩
    rw [← State.writeReg_withStatus]
    exact step_writeReg (s := { s with status := status }) hp hreg hne
  | readReg off =>
    obtain ⟨reg, hreg⟩ := exists_regAt_of_listed hwf
    exact ⟨_, step_readReg hp hreg, rfl, fun hread => absurd rfl (hread off)⟩
  | writeMem a b =>
    have ha : a < s.memSize := of_decide_eq_true hwf
    exact ⟨_, step_writeMem hp ha, rfl, fun _ status => step_writeMem (s := { s with status := status }) hp ha⟩
  | readMem a =>
    have ha : a < s.memSize := of_decide_eq_true hwf
    exact ⟨_, step_readMem hp ha, rfl, fun _ status => step_readMem (s := { s with status := status }) hp ha⟩
  | reset => exact absurd rfl hreset

end Sys2Proof.Machine
end

section
/-! Which words are commands (30_encoding.md R45 to R49). The decoder and the opcode table are both stated by the four
fields of R45: `decode_ok_iff` says which fields the decoder accepts, `matchesRow_iff` which fields a row's mask and value
ask for. The two conditions then differ only in `r <= 10` for `ADD_ROUND_KEY`. -/

namespace Sys2Proof

/-! ### A word by its fields -/

/-- The four fields of R45 make up the whole word. -/
theorem word_ext_fields {w x : Word} (hop : opField w = opField x) (hr : rField w = rField x)
    (hnp : npField w = npField x) (hzero : zeroField w = zeroField x) : w = x := by
  refine BitVec.eq_of_getLsbD_eq (fun k hk => ?_)
  obtain hk8 | hk12 | rfl | hk13 : k < 8 ∨ (8 ≤ k ∧ k < 12) ∨ k = 12 ∨ 13 ≤ k := by omega
  · simpa [opField, hk8] using congrArg (·.getLsbD k) hop
  · have h4 : k - 8 < 4 := by omega
    simpa [rField, h4, Nat.add_sub_cancel' hk12.1] using congrArg (·.getLsbD (k - 8)) hr
  · exact hnp
  · have h19 : k - 13 < 19 := by omega
    simpa [zeroField, h19, Nat.add_sub_cancel' hk13] using congrArg (·.getLsbD (k - 13)) hzero

@[simp] theorem opField_and (w m : Word) : opField (w &&& m) = opField w &&& opField m := BitVec.extractLsb'_and

@[simp] theorem rField_and (w m : Word) : rField (w &&& m) = rField w &&& rField m := BitVec.extractLsb'_and

@[simp] theorem npField_and (w m : Word) : npField (w &&& m) = (npField w && npField m) := BitVec.getLsbD_and ..

@[simp] theorem zeroField_and (w m : Word) : zeroField (w &&& m) = zeroField w &&& zeroField m :=
  BitVec.extractLsb'_and

/-! ### The rows of the opcode table by their fields -/

/-- The `op` of a command's row (R48). -/
def Instr.opcode (i : Instr) : BitVec 8 := opField (opcodeRow i).value

/-- The 22 opcodes of R48, in the order of the table. -/
def opcodes : List (BitVec 8) :=
  [0x10, 0x11, 0x12, 0x13, 0x20, 0x21, 0x30, 0x31, 0x32, 0x33, 0x34, 0x35, 0x36, 0x37, 0x38, 0x40, 0x50, 0x51, 0x60, 0x61,
    0x62, 0x63]

theorem Instr.opcode_mem_opcodes (i : Instr) : i.opcode ∈ opcodes := by
  cases i <;> decide +revert

theorem exists_opcode_eq_of_mem {op : BitVec 8} (h : op ∈ opcodes) : ∃ i : Instr, i.opcode = op := by
  have hall : ∀ op ∈ opcodes, ∃ i ∈ allCommands, i.opcode = op := by decide
  obtain ⟨i, -, hi⟩ := hall op h
  exact ⟨i, hi⟩

/-- Outside its `op` the value of a row is zero. -/
theorem opcodeRow_value_fields (i : Instr) :
    rField (opcodeRow i).value = 0 ∧ npField (opcodeRow i).value = false ∧ zeroField (opcodeRow i).value = 0 := by
  cases i <;> decide +revert

/-- The mask of a row leaves free nothing but the row's operand: `r` with opcode 0x38, `np` with 0x62 and 0x63. -/
theorem opcodeRow_mask_fields (i : Instr) :
    opField (opcodeRow i).mask = BitVec.allOnes 8 ∧ zeroField (opcodeRow i).mask = BitVec.allOnes 19
      ∧ rField (opcodeRow i).mask = (if i.opcode = 0x38 then 0 else BitVec.allOnes 4)
      ∧ npField (opcodeRow i).mask = decide (i.opcode ≠ 0x62 ∧ i.opcode ≠ 0x63) := by
  cases i <;> decide +revert

/-- The mnemonic that R48's proviso names stands in the row of opcode 0x38 alone. -/
theorem opcodeRow_mnemonic_eq_addRoundKey_iff (i : Instr) :
    (opcodeRow i).mnemonic = "ADD_ROUND_KEY" ↔ i.opcode = 0x38 := by
  cases i <;> decide +revert

/-- The fields a word may have beside its `op`, as R48 writes them into the masks: the zero field is 0, and `r` and `np`
are 0 where they are no operand. -/
def OperandsFit (w : Word) : Prop :=
  zeroField w = 0 ∧ (opField w ≠ 0x38 → rField w = 0)
    ∧ (opField w ≠ 0x62 → opField w ≠ 0x63 → npField w = false)

/-- A word matches a row under its mask when it has the row's `op` and nothing but that opcode's operand beside it. -/
theorem matchesRow_iff (w : Word) (i : Instr) :
    w &&& (opcodeRow i).mask = (opcodeRow i).value ↔ opField w = i.opcode ∧ OperandsFit w := by
  obtain ⟨hvr, hvnp, hvz⟩ := opcodeRow_value_fields i
  obtain ⟨hmop, hmz, hmr, hmnp⟩ := opcodeRow_mask_fields i
  constructor
  · intro h
    have hop : opField w = i.opcode := by
      rw [Instr.opcode, ← h, opField_and, hmop, BitVec.and_allOnes]
    refine ⟨hop, ?_, fun h38 => ?_, fun h62 h63 => ?_⟩
    · rw [← hvz, ← h, zeroField_and, hmz, BitVec.and_allOnes]
    · rw [← hvr, ← h, rField_and, hmr, if_neg (hop ▸ h38), BitVec.and_allOnes]
    · rw [← hvnp, ← h, npField_and, hmnp, decide_eq_true ⟨hop ▸ h62, hop ▸ h63⟩, Bool.and_true]
  · rintro ⟨hop, hz, hr, hnp⟩
    refine word_ext_fields ?_ ?_ ?_ ?_
    · rw [opField_and, hmop, BitVec.and_allOnes, hop, Instr.opcode]
    · rw [rField_and, hmr, hvr]
      split_ifs with h38
      · exact BitVec.and_zero
      · rw [hr (hop ▸ h38)]
        exact BitVec.zero_and
    · rw [npField_and, hmnp, hvnp, ← hop]
      by_cases h : opField w ≠ 0x62 ∧ opField w ≠ 0x63
      · rw [hnp h.1 h.2, Bool.false_and]
      · rw [decide_eq_false h, Bool.and_false]
    · rw [zeroField_and, hz, hvz]
      exact BitVec.zero_and

/-! ### What the decoder accepts -/

/-- A command without an operand stands under its own opcode. -/
theorem plainCommand_some {op : BitVec 8} {i : Instr} (h : plainCommand op = some i) : op = i.opcode := by
  unfold plainCommand at h
  split at h <;> cases h <;> rfl

/-- A test that ends in an error was not met by what passes. -/
theorem ite_error_eq_ok_iff {c : Prop} [Decidable c] {e : IllegalWord} {x : Except IllegalWord Instr} {i : Instr} :
    (if c then .error e else x) = .ok i ↔ ¬ c ∧ x = .ok i := by
  split_ifs with h <;> simp [h]

/-- The decoder of R53, one alternative per form of command. -/
theorem decode_ok_iff (w : Word) (i : Instr) :
    decode w = .ok i ↔ zeroField w = 0
      ∧ ((opField w = 0x38 ∧ npField w = false ∧ (rField w).toNat ≤ 10 ∧ .addRoundKey (rField w) = i)
        ∨ (opField w = 0x62 ∧ rField w = 0 ∧ .cbcEnc (npField w) = i)
        ∨ (opField w = 0x63 ∧ rField w = 0 ∧ .cbcDec (npField w) = i)
        ∨ (rField w = 0 ∧ npField w = false ∧ plainCommand (opField w) = some i)) := by
  rw [decode, ite_error_eq_ok_iff, not_not]
  refine and_congr_right (fun _ => ?_)
  simp only [BitVec.ofNat_eq_ofNat]
  by_cases h38 : opField w = 0x38#8
  · rw [if_pos h38, ite_error_eq_ok_iff, ite_error_eq_ok_iff]
    simp [h38, plainCommand]
  rw [if_neg h38]
  by_cases h62 : opField w = 0x62#8
  · rw [if_pos h62, ite_error_eq_ok_iff]
    simp [h62, plainCommand]
  rw [if_neg h62]
  by_cases h63 : opField w = 0x63#8
  · rw [if_pos h63, ite_error_eq_ok_iff]
    simp [h63, plainCommand]
  rw [if_neg h63]
  cases plainCommand (opField w) with
  | none => simp [h38, h62, h63]
  | some j =>
    dsimp only
    rw [ite_error_eq_ok_iff, ite_error_eq_ok_iff]
    simp [h38, h62, h63]

/-- A word the decoder accepts has the opcode of its command, nothing but that opcode's operand beside it, and `r` at most
10. -/
theorem fields_of_decode_ok {w : Word} {i : Instr} (h : decode w = .ok i) :
    opField w = i.opcode ∧ OperandsFit w ∧ (opField w = 0x38 → (rField w).toNat ≤ 10) := by
  obtain ⟨hz, ⟨hop, hnp, hr, rfl⟩ | ⟨hop, hr, rfl⟩ | ⟨hop, hr, rfl⟩ | ⟨hr, hnp, hplain⟩⟩ := (decode_ok_iff w i).1 h
  · exact ⟨hop, ⟨hz, fun h38 => absurd hop h38, fun _ _ => hnp⟩, fun _ => hr⟩
  · exact ⟨hop, ⟨hz, fun _ => hr, fun h62 => absurd hop h62⟩, fun _ => by simp [hr]⟩
  · exact ⟨hop, ⟨hz, fun _ => hr, fun _ h63 => absurd hop h63⟩, fun _ => by simp [hr]⟩
  · exact ⟨plainCommand_some hplain, ⟨hz, fun _ => hr, fun _ _ => hnp⟩, fun _ => by simp [hr]⟩

/-- The decoder accepts every word with these fields, as a command of the opcode's row. -/
theorem exists_decode_ok_of_fields {w : Word} {i : Instr} (hop : opField w = i.opcode) (hfit : OperandsFit w)
    (hrange : opField w = 0x38 → (rField w).toNat ≤ 10) : ∃ j, decode w = .ok j ∧ opcodeRow j = opcodeRow i := by
  obtain ⟨hz, hr, hnp⟩ := hfit
  simp only [decode_ok_iff, hz, true_and]
  cases i with
  | addRoundKey r =>
    have h38 : opField w = 0x38 := hop
    exact ⟨_, .inl ⟨h38, hnp (by simp [h38]) (by simp [h38]), hrange h38, rfl⟩, rfl⟩
  | cbcEnc np =>
    have h62 : opField w = 0x62 := hop
    exact ⟨_, .inr (.inl ⟨h62, hr (by simp [h62]), rfl⟩), rfl⟩
  | cbcDec np =>
    have h63 : opField w = 0x63 := hop
    exact ⟨_, .inr (.inr (.inl ⟨h63, hr (by simp [h63]), rfl⟩)), rfl⟩
  | _ =>
    rw [hop] at hr hnp ⊢
    exact ⟨_, .inr (.inr (.inr ⟨hr (by decide), hnp (by decide) (by decide), rfl⟩)), rfl⟩

/-- The command words of R48: one of the 22 opcodes, nothing but that opcode's operand beside it, and `r` at most 10. -/
theorem exists_decode_ok_iff (w : Word) :
    (∃ i, decode w = .ok i)
      ↔ opField w ∈ opcodes ∧ OperandsFit w ∧ (opField w = 0x38 → (rField w).toNat ≤ 10) := by
  constructor
  · rintro ⟨i, hi⟩
    obtain ⟨hop, hrest⟩ := fields_of_decode_ok hi
    exact ⟨hop ▸ i.opcode_mem_opcodes, hrest⟩
  · rintro ⟨hmem, hfit, hrange⟩
    obtain ⟨i, hi⟩ := exists_opcode_eq_of_mem hmem
    obtain ⟨j, hj, -⟩ := exists_decode_ok_of_fields hi.symm hfit hrange
    exact ⟨j, hj⟩

/-- A word is illegal when it is no command (R49). -/
theorem exists_decode_error_iff (w : Word) : (∃ e, decode w = .error e) ↔ ¬ ∃ i, decode w = .ok i := by
  cases decode w <;> simp

/-- Settles O4: decoder and row ask for the same fields, except that the decoder bounds `r`, which the premise of the
second half supplies. -/
theorem decoderMatchesOpcodeTable : Obligations.DecoderMatchesOpcodeTable := by
  refine fun w => ⟨fun i h => ?_, fun i hmatch hrange => ?_⟩
  · obtain ⟨hop, hfit, -⟩ := fields_of_decode_ok h
    exact (matchesRow_iff w i).2 ⟨hop, hfit⟩
  · obtain ⟨hop, hfit⟩ := (matchesRow_iff w i).1 hmatch
    refine exists_decode_ok_of_fields hop hfit (fun h38 => hrange ?_)
    exact (opcodeRow_mnemonic_eq_addRoundKey_iff i).2 (hop ▸ h38)

end Sys2Proof
end

section
/-! Writing an illegal word to `CMD` (30_encoding.md R49, 60_exceptions.md R144). -/

namespace Sys2Proof.Machine

/-- A step in which the host writes a word to `CMD`. -/
theorem step_writeCmd {s : State} {rest : List HostOp} {w : Word} (h : s.pending = .writeReg 0x000 w :: rest) :
    step s = writeCmd w (s.start rest) := by
  rw [step, h]
  rfl

/-- An illegal word written to `CMD` while `FATAL` is 0 sets `STATUS` to `IllegalCommand` and changes nothing else. -/
theorem writeCmd_illegal {s : State} {w : Word} {e : IllegalWord} (hf : s.fatal = false) (hw : decode w = .error e) :
    writeCmd w s = .next { s with status := 1 } := by
  have hrun : writeCmd w s = runIllegal s := by simp [writeCmd, hf, hw]
  rw [hrun]
  exact runCommand_error (e := .illegalCommand) hf rfl (by decide)

/-- Settles O5: a word is no command when one of the conditions on a command word fails, and the step that writes it is
`runIllegal`. -/
theorem illegalWords : Obligations.IllegalWords := by
  refine ⟨fun w => ?_, fun s w rest e hp hf hw => ?_⟩
  · rw [exists_decode_error_iff, exists_decode_ok_iff, OperandsFit, opcodes]
    have hrange : ¬ (rField w).toNat ≤ 10 ↔ 11 ≤ (rField w).toNat := Nat.not_le
    have hnp : ¬ npField w = false ↔ npField w = true := iff_of_eq (Bool.not_eq_false _)
    tauto
  · rw [step_writeCmd hp]
    exact writeCmd_illegal hf hw

end Sys2Proof.Machine
end

section
/-! The laws of `double`, `multiply` and `power` (40_gf_arithmetic.md R60 to R63, R69). Every Byte is a sum of doublings
of 1 (`byte_induction`), so a law of `multiply` holds once it holds of 1 and is kept by `double` and by XOR. Two facts
are evaluated on the 256 Bytes: that 1 is neutral, and that nothing but 0 and 1 is its own square. -/

namespace Sys2Proof.Machine

/-! ### `multiply` is linear in each operand -/

/-- Doubling what is accumulated and the first operand doubles the result of the loop. -/
theorem multiplyLoop_double (n : Nat) (c a b : Byte) :
    multiplyLoop n (double c) (double a) b = double (multiplyLoop n c a b) := by
  induction n generalizing c a b with
  | zero => rfl
  | succ n ih =>
    simp only [multiplyLoop]
    rw [← ih]
    cases b.getLsbD 0 <;> simp [double_xor]

/-- The loop is additive in the first operand. -/
theorem multiplyLoop_xor_left (n : Nat) (c d a a' b : Byte) :
    multiplyLoop n (c ^^^ d) (a ^^^ a') b = multiplyLoop n c a b ^^^ multiplyLoop n d a' b := by
  induction n generalizing c d a a' b with
  | zero => rfl
  | succ n ih =>
    simp only [multiplyLoop]
    rw [double_xor, ← ih]
    congr 1
    cases b.getLsbD 0
    · rfl
    · show (c ^^^ d) ^^^ (a ^^^ a') = (c ^^^ a) ^^^ (d ^^^ a')
      ac_rfl

/-- The loop is additive in the second operand. -/
theorem multiplyLoop_xor_right (n : Nat) (c d a b b' : Byte) :
    multiplyLoop n (c ^^^ d) a (b ^^^ b') = multiplyLoop n c a b ^^^ multiplyLoop n d a b' := by
  induction n generalizing c d a b b' with
  | zero => rfl
  | succ n ih =>
    simp only [multiplyLoop]
    rw [← ih, BitVec.getLsbD_xor, BitVec.ushiftRight_xor_distrib]
    congr 1
    cases b.getLsbD 0 <;> cases b'.getLsbD 0
    · rfl
    · exact BitVec.xor_assoc c d a
    · show (c ^^^ d) ^^^ a = (c ^^^ a) ^^^ d
      ac_rfl
    · exact (xor_cancel_right a c d).symm

theorem multiply_double_left (a b : Byte) : multiply (double a) b = double (multiply a b) :=
  multiplyLoop_double 8 0 a b

theorem multiply_xor_left (a b c : Byte) : multiply (a ^^^ b) c = multiply a c ^^^ multiply b c :=
  multiplyLoop_xor_left 8 0 0 a b c

theorem multiply_xor_right (a b c : Byte) : multiply a (b ^^^ c) = multiply a b ^^^ multiply a c :=
  multiplyLoop_xor_right 8 0 0 a b c

theorem multiply_zero (a : Byte) : multiply a 0 = 0 := by
  simpa using multiply_xor_right a 0 0

theorem zero_multiply (a : Byte) : multiply 0 a = 0 := by
  simpa using multiply_xor_left 0 0 a

theorem multiply_one (a : Byte) : multiply a 1 = a := by
  simp [multiply, multiplyLoop]

theorem one_multiply (a : Byte) : multiply 1 a = a := by
  have h := forall_byte (p := fun x => multiply 1 x == x) (by decide +kernel) a
  exact beq_iff_eq.1 h

theorem double_eq_multiply_two (a : Byte) : double a = multiply 2 a :=
  calc double a = double (multiply 1 a) := by rw [one_multiply]
    _ = multiply (double 1) a := (multiply_double_left 1 a).symm

/-! ### Induction over the field -/

/-- A property kept by `double` and by XOR passes from the operands of the loop to its result. -/
theorem multiplyLoop_closed {p : Byte → Prop} (hdouble : ∀ a, p a → p (double a))
    (hxor : ∀ a b, p a → p b → p (a ^^^ b)) (n : Nat) (c a b : Byte) (hc : p c) (ha : p a) :
    p (multiplyLoop n c a b) := by
  induction n generalizing c a b with
  | zero => exact hc
  | succ n ih =>
    refine ih _ _ _ ?_ (hdouble a ha)
    cases b.getLsbD 0
    · exact hc
    · exact hxor c a hc ha

/-- Every Byte is made from 1 by doubling and XOR: it is the product of 1 and itself. -/
theorem byte_induction {p : Byte → Prop} (hone : p 1) (hdouble : ∀ a, p a → p (double a))
    (hxor : ∀ a b, p a → p b → p (a ^^^ b)) (a : Byte) : p a := by
  have hzero : p 0 := hxor 1 1 hone hone
  rw [← one_multiply a]
  exact multiplyLoop_closed hdouble hxor 8 0 1 a hzero hone

/-! ### The laws of `multiply` -/

theorem multiply_double_right (a b : Byte) : multiply a (double b) = double (multiply a b) := by
  induction a using byte_induction with
  | hone => rw [one_multiply, one_multiply]
  | hdouble a ih => rw [multiply_double_left, multiply_double_left, ih]
  | hxor a a' ih ih' => rw [multiply_xor_left, multiply_xor_left, double_xor, ih, ih']

theorem multiply_comm (a b : Byte) : multiply a b = multiply b a := by
  induction a using byte_induction with
  | hone => rw [one_multiply, multiply_one]
  | hdouble a ih => rw [multiply_double_left, multiply_double_right, ih]
  | hxor a a' ih ih' => rw [multiply_xor_left, multiply_xor_right, ih, ih']

theorem multiply_assoc (a b c : Byte) : multiply (multiply a b) c = multiply a (multiply b c) := by
  induction a using byte_induction with
  | hone => rw [one_multiply, one_multiply]
  | hdouble a ih => rw [multiply_double_left, multiply_double_left, multiply_double_left, ih]
  | hxor a a' ih ih' => rw [multiply_xor_left, multiply_xor_left, multiply_xor_left, ih, ih']

/-- `multiply` is the product written bit by bit (R61). -/
theorem multiply_eq_fieldProduct (a b : Byte) : multiply a b = fieldProduct a b := by
  simp [multiply, multiplyLoop, fieldProduct, List.range_succ, ← BitVec.shiftRight_add, Bool.cond_eq_ite]

/-! ### `power` -/

/-- Repeated squaring multiplies by `base` as often as the exponent says, given enough steps (R62). -/
theorem powerLoop_eq_iterate (n : Nat) (result base : Byte) (e : Nat) (he : e ≤ n) :
    powerLoop n result base e = multiply result ((multiply base)^[e] 1) := by
  induction n generalizing result base e with
  | zero =>
    obtain rfl : e = 0 := Nat.le_zero.1 he
    exact (multiply_one result).symm
  | succ n ih =>
    have hsquare : multiply (multiply base base) = (multiply base)^[2] := funext (multiply_assoc base base)
    have hhalf : (multiply (multiply base base))^[e / 2] 1 = (multiply base)^[2 * (e / 2)] 1 := by
      rw [hsquare, ← Function.iterate_mul]
    rw [powerLoop]
    split_ifs with hzero hodd
    · rw [hzero]
      exact (multiply_one result).symm
    · rw [ih _ _ _ (by omega), hhalf, multiply_assoc, ← Function.iterate_succ_apply' (multiply base)]
      congr 2
      omega
    · rw [ih _ _ _ (by omega), hhalf, show 2 * (e / 2) = e by omega]

/-- `power(a, e)` is 1 multiplied by `a` as often as `e` says (R62, R66). -/
theorem power_eq_iterate (a : Byte) (e : Nat) : power a e = (multiply a)^[e] 1 := by
  rw [power, powerLoop_eq_iterate e _ a e le_rfl]
  exact one_multiply _

theorem power_succ (a : Byte) (e : Nat) : power a (e + 1) = multiply a (power a e) := by
  rw [power_eq_iterate, power_eq_iterate, Function.iterate_succ_apply']

theorem power_one (a : Byte) : power a 1 = a := (power_succ a 0).trans (multiply_one a)

theorem one_power (e : Nat) : power 1 e = 1 := by
  rw [power_eq_iterate]
  exact Function.iterate_fixed (multiply_one 1) e

theorem zero_power {e : Nat} (he : 1 ≤ e) : power 0 e = 0 := by
  obtain ⟨k, rfl⟩ := Nat.exists_eq_add_of_le' he
  rw [power_succ, zero_multiply]

theorem power_add (a : Byte) (m n : Nat) : power a (m + n) = multiply (power a m) (power a n) := by
  induction m with
  | zero =>
    rw [Nat.zero_add]
    exact (one_multiply _).symm
  | succ m ih => rw [Nat.add_right_comm, power_succ, power_succ, ih, multiply_assoc]

theorem power_multiply (a b : Byte) (e : Nat) : power (multiply a b) e = multiply (power a e) (power b e) := by
  have : Std.Associative multiply := ⟨multiply_assoc⟩
  have : Std.Commutative multiply := ⟨multiply_comm⟩
  induction e with
  | zero => exact (one_multiply 1).symm
  | succ e ih =>
    rw [power_succ, power_succ, power_succ, ih]
    ac_rfl

/-! ### The order of a Byte

Since addition is XOR, squaring is additive, so `power(a, 256) = a` holds of every Byte once it holds of 2. Then
`power(a, 255)` is its own square, so it is 0 or 1, and it is 0 only for `a = 0`. -/

theorem square_xor (a b : Byte) : multiply (a ^^^ b) (a ^^^ b) = multiply a a ^^^ multiply b b := by
  rw [multiply_xor_left, multiply_xor_right, multiply_xor_right, multiply_comm b a,
    BitVec.xor_comm (multiply a b) (multiply b b)]
  exact xor_cancel_right _ _ _

theorem power_two_pow_xor (a b : Byte) (k : Nat) : power (a ^^^ b) (2 ^ k) = power a (2 ^ k) ^^^ power b (2 ^ k) := by
  induction k with
  | zero => rw [pow_zero, power_one, power_one, power_one]
  | succ k ih => rw [pow_succ, mul_two, power_add, power_add, power_add, ih, square_xor]

theorem power_256 (a : Byte) : power a 256 = a := by
  induction a using byte_induction with
  | hone => exact one_power 256
  | hdouble a ih =>
    have htwo : power 2 256 = 2 := by decide +kernel
    rw [double_eq_multiply_two, power_multiply, ih, htwo]
  | hxor a b iha ihb => exact (power_two_pow_xor a b 8).trans (congrArg₂ _ iha ihb)

/-- Only 0 and 1 are their own squares, evaluated on the 256 Bytes. -/
theorem eq_zero_or_eq_one_of_square {a : Byte} (h : multiply a a = a) : a = 0 ∨ a = 1 := by
  have hall := forall_byte (p := fun x => decide (multiply x x = x → x = 0 ∨ x = 1)) (by decide +kernel) a
  exact of_decide_eq_true hall h

/-- The order of every Byte other than 0 divides 255 (R69). -/
theorem power_order {a : Byte} (ha : a ≠ 0) : power a 255 = 1 := by
  have hsquare : multiply (power a 255) (power a 255) = power a 255 := by
    rw [← power_add, show 255 + 255 = 254 + 256 from rfl, power_add, power_256, multiply_comm, ← power_succ]
  refine (eq_zero_or_eq_one_of_square hsquare).resolve_left (fun hzero => ha ?_)
  rw [← power_256 a, power_succ, hzero, multiply_zero]

/-- Exponents count modulo 255 (R66). -/
theorem power_mod {a : Byte} (ha : a ≠ 0) (e : Nat) : power a (e % 255) = power a e := by
  have hperiod : Function.IsPeriodicPt (multiply a) 255 1 := (power_eq_iterate a 255).symm.trans (power_order ha)
  rw [power_eq_iterate, power_eq_iterate, hperiod.iterate_mod_apply]

/-! ### `inverse` -/

theorem inverse_zero : inverse 0 = 0 := zero_power (by decide)

theorem multiply_inverse {a : Byte} (ha : a ≠ 0) : multiply a (inverse a) = 1 := by
  rw [inverse, ← power_succ]
  exact power_order ha

/-- There are no zero divisors: a factor other than 0 can be cancelled by its inverse (R69). -/
theorem eq_zero_or_eq_zero_of_multiply {a b : Byte} (h : multiply a b = 0) : a = 0 ∨ b = 0 := by
  refine or_iff_not_imp_left.2 (fun ha => ?_)
  calc b = multiply (multiply (inverse a) a) b := by rw [multiply_comm _ a, multiply_inverse ha, one_multiply]
    _ = 0 := by rw [multiply_assoc, h, multiply_zero]

theorem inverse_inverse (a : Byte) : inverse (inverse a) = a := by
  by_cases ha : a = 0
  · rw [ha, inverse_zero, inverse_zero]
  · have hinv : inverse a ≠ 0 := by
      intro h
      have hone := multiply_inverse ha
      rw [h, multiply_zero] at hone
      exact absurd hone (by decide)
    calc inverse (inverse a) = multiply (multiply a (inverse a)) (inverse (inverse a)) := by
          rw [multiply_inverse ha, one_multiply]
      _ = a := by rw [multiply_assoc, multiply_inverse hinv, multiply_one]

/-- Settles O28: the laws by induction over the field, no zero divisors by the inverse. -/
theorem multiplyFieldLaws : Obligations.MultiplyFieldLaws := fun a b c =>
  ⟨multiply_comm a b, multiply_assoc a b c, multiply_xor_right a b c, eq_zero_or_eq_zero_of_multiply, power_order⟩

/-- Settles O29: the recurrence by the meaning of repeated squaring, the corner cases by the recurrence. -/
theorem powerIsRepeatedProduct : Obligations.PowerIsRepeatedProduct := fun a e =>
  ⟨rfl, power_succ a e, zero_power, one_power e, power_one a, power_order⟩

end Sys2Proof.Machine
end

section
/-! The four commands of the field (40_gf_arithmetic.md R64 to R67): the result of the function they name, by
`runCommand_result`, and the laws of that function. -/

namespace Sys2Proof.Machine

/-- Every command is refused while `FATAL` is 1 (R146). -/
theorem exec_refusedWhenFatal (i : Instr) (s : State) : RefusedWhenFatal i s := by
  intro hf
  obtain ⟨body, hbody, -⟩ := exec_runs_body i s
  rw [hbody, runCommand_locked hf]

/-- `double` in the words of R60. -/
theorem double_eq_ite (a : Byte) : double a = if a.getLsbD 7 then (a <<< 1) ^^^ 0x1B else a <<< 1 :=
  Bool.cond_eq_ite ..

/-- Settles O26: the result is `double`. -/
theorem gfDblResult : Obligations.GfDblResult := by
  refine fun s => ⟨⟨rfl, rfl⟩, exec_refusedWhenFatal _ s, fun hf => ?_⟩
  rw [← double_eq_ite]
  exact runCommand_result hf (fun s => double s.a)

/-- Settles O27: the result is `multiply`, which is the product bit by bit and commutes. -/
theorem gfMulResult : Obligations.GfMulResult := by
  refine fun s => ⟨⟨rfl, rfl⟩, exec_refusedWhenFatal _ s, fun hf => ?_⟩
  rw [← multiply_eq_fieldProduct]
  refine ⟨runCommand_result hf (fun s => multiply s.a s.b), ?_⟩
  rw [multiply_comm]
  exact runCommand_result (s := { s with a := s.b, b := s.a }) hf (fun s => multiply s.a s.b)

/-- Settles O30: the result is `power`, which is the repeated product and counts exponents modulo 255. -/
theorem gfPowResult : Obligations.GfPowResult := by
  refine fun s => ⟨⟨rfl, rfl⟩, exec_refusedWhenFatal _ s, fun hf => ?_, fun e ha _ => (power_mod ha e).symm⟩
  rw [← power_eq_iterate]
  exact runCommand_result hf (fun s => power s.a s.b.toNat)

/-- Settles O31: the result is `inverse`, whose product with `A` is `power(A, 255)`. -/
theorem gfInvResult : Obligations.GfInvResult := by
  refine fun s => ⟨⟨rfl, rfl⟩, exec_refusedWhenFatal _ s, fun hf => ⟨inverse s.a, ?_, rfl, fun ha => ?_, ?_, ?_⟩⟩
  · exact runCommand_result hf (fun s => inverse s.a)
  · rw [ha, inverse_zero]
  · exact multiply_inverse
  · exact inverse_inverse s.a

end Sys2Proof.Machine
end

section
/-! The S-box as a bijection and its search (41_sbox.md R70 to R74). `forward_sbox` is the affine transform after the
field inverse: the field inverse undoes itself and the affine transform has an inverse, so `forward_sbox` is injective,
and on the 256 Bytes that makes it a bijection. The search then stops at the one Byte it looks for. -/

namespace Sys2Proof.Machine

/-! ### The affine transform (R70) -/

/-- The affine transform of R70, written with rotations. -/
def affineTransform (y : Byte) : Byte :=
  y ^^^ y.rotateLeft 1 ^^^ y.rotateLeft 2 ^^^ y.rotateLeft 3 ^^^ y.rotateLeft 4 ^^^ 0x63

/-- The transform that undoes `affineTransform`, also a XOR of rotations and a constant. -/
def affineTransformInv (z : Byte) : Byte :=
  z.rotateLeft 1 ^^^ z.rotateLeft 3 ^^^ z.rotateLeft 6 ^^^ 0x05

theorem rotl8_eq_rotateLeft (y : Byte) {n : Nat} (hn : n < 8) : rotl8 y n = y.rotateLeft n :=
  (BitVec.rotateLeft_eq_rotateLeftAux_of_lt hn).symm

theorem forwardSbox_eq_affineTransform (x : Byte) : forwardSbox x = affineTransform (inverse x) := by
  simp [forwardSbox, affineTransform, affineConstant, rotl8_eq_rotateLeft]

/-- Evaluated on the 256 Bytes. -/
theorem affineTransform_leftInverse : Function.LeftInverse affineTransformInv affineTransform := fun y =>
  beq_iff_eq.1 (forall_byte (p := fun y => affineTransformInv (affineTransform y) == y) (by decide +kernel) y)

/-! ### `forward_sbox` is a bijection (R72) -/

theorem inverse_involutive : Function.Involutive inverse := inverse_inverse

theorem forwardSbox_injective : Function.Injective forwardSbox := by
  rw [show forwardSbox = affineTransform ∘ inverse from funext forwardSbox_eq_affineTransform]
  exact affineTransform_leftInverse.injective.comp inverse_involutive.injective

theorem forwardSbox_bijective : Function.Bijective forwardSbox :=
  Finite.injective_iff_bijective.1 forwardSbox_injective

/-- Neither a Byte nor its complement is its own value, evaluated on the 256 Bytes as R72 does. -/
theorem forwardSbox_ne_self_and_ne_complement (x : Byte) : forwardSbox x ≠ x ∧ forwardSbox x ≠ x ^^^ 0xFF :=
  of_decide_eq_true
    (forall_byte (p := fun x => decide (forwardSbox x ≠ x ∧ forwardSbox x ≠ x ^^^ 0xFF)) (by decide +kernel) x)

/-- Settles O33: injective since both of its stages are, hence a bijection of the finite set of Bytes. -/
theorem forwardSboxBijective : Obligations.ForwardSboxBijective :=
  ⟨forwardSbox_bijective, fun x => (forwardSbox_ne_self_and_ne_complement x).1,
    fun x => (forwardSbox_ne_self_and_ne_complement x).2⟩

/-! ### The search of `inverse_sbox` (R71) -/

/-- The search for the value of a Byte among its candidates finds that Byte: no earlier candidate has the value. -/
theorem searchSbox_forwardSbox {u : Byte} {n v : Nat} (hfirst : v ≤ u.toNat) (hlast : u.toNat < v + n) :
    searchSbox n v (forwardSbox u) = some u := by
  induction n generalizing v with
  | zero => omega
  | succ n ih =>
    rw [searchSbox]
    split_ifs with hmatch
    · rw [forwardSbox_injective hmatch]
    · have hne : v ≠ u.toNat := by
        rintro rfl
        exact hmatch (by rw [BitVec.ofNat_toNat, BitVec.setWidth_eq])
      exact ih (by omega) (by omega)

theorem inverseSbox_forwardSbox (x : Byte) : inverseSbox (forwardSbox x) = .ok x := by
  rw [inverseSbox, searchSbox_forwardSbox (Nat.zero_le _) (by omega)]

/-! ### The commands (R73, R74) -/

/-- Settles O32: the result is `forwardSbox`, which is the affine transform of `power(A, 254)`. -/
theorem sboxFwdResult : Obligations.SboxFwdResult := by
  refine fun s => ⟨⟨rfl, rfl⟩, exec_refusedWhenFatal _ s, fun hf => ⟨power s.a 254, rfl, ?_⟩⟩
  refine (runCommand_result hf (fun s => forwardSbox s.a)).trans ?_
  rw [forwardSbox_eq_affineTransform]
  rfl

/-- `SBOX_INV` on the value of a Byte gives that Byte. -/
theorem exec_sboxInv {s : State} {v : Byte} (hf : s.fatal = false) (hv : forwardSbox v = s.a) :
    exec .sboxInv s = .next { s with r := v, status := 0 } := by
  have hsearch : inverseSbox s.a = .ok v := hv ▸ inverseSbox_forwardSbox v
  exact runCommand_ok (t := { s with r := v }) hf (by simp only [hsearch]) rfl

/-- Settles O34: `A` is the value of one Byte, since `forwardSbox` is a bijection, and the search finds it. -/
theorem sboxInvResult : Obligations.SboxInvResult := by
  refine fun s => ⟨⟨rfl, rfl⟩, exec_refusedWhenFatal _ s, fun hf => ?_, inverseSbox_forwardSbox⟩
  obtain ⟨v, hv, hunique⟩ := forwardSbox_bijective.existsUnique s.a
  exact ⟨v, exec_sboxInv hf hv, hv, hunique⟩

end Sys2Proof.Machine
end

section
/-! The State grid and its transforms (42_state_transforms.md R80 to R90): the entries of each transform, and which
transforms undo each other. Rows are shifted by addition and subtraction of column indices modulo 4. A mixing is the
product with a matrix whose rows are rotations of one vector, so one mixing undoes another when the product of their
matrices is the identity. -/

namespace Sys2Proof.Machine

/-! ### Block and grid (R80, R81) -/

/-- Row `r` of a grid by its four entries. -/
theorem Grid.row_eq (g : Grid) (r : Fin 4) : g[r] = #v[g[r][0], g[r][1], g[r][2], g[r][3]] := by
  refine Vector.ext (fun c hc => ?_)
  obtain rfl | rfl | rfl | rfl : c = 0 ∨ c = 1 ∨ c = 2 ∨ c = 3 := by omega
  all_goals rfl

/-- Entry `r`, `c` of a grid is Byte `r + 4c` of its sequence (R81). -/
theorem getElem_stateToBytes_entry (g : Grid) (r c : Fin 4) (h : r.val + 4 * c.val < (stateToBytes g).length) :
    (stateToBytes g)[r.val + 4 * c.val] = g[r][c] := by
  rw [← List.getD_eq_getElem _ 0 h, ← getElem_bytesToState, bytesToState_stateToBytes]

/-! ### `sub_bytes` and `inv_sub_bytes` (R82, R83) -/

theorem getElem_subBytes (g : Grid) (r c : Fin 4) : (subBytes g)[r][c] = forwardSbox g[r][c] :=
  Grid.getElem_ofFn _ r c

/-- The sixteen searches find the sixteen entries. -/
theorem invSubBytes_subBytes (g : Grid) : invSubBytes (subBytes g) = .ok g := by
  simp only [invSubBytes, getElem_subBytes, inverseSbox_forwardSbox, allFour_ok]
  exact congrArg Except.ok (Grid.ofFn_entries g)

/-- Every grid is the substitution of a grid, since every Byte is a value of `forward_sbox`. -/
theorem subBytes_surjective : Function.Surjective subBytes := by
  intro g
  choose preimage hpreimage using forwardSbox_bijective.surjective
  refine ⟨Grid.ofFn (fun r c => preimage g[r][c]), Grid.ext_entries (fun r c => ?_)⟩
  rw [getElem_subBytes, Grid.getElem_ofFn, hpreimage]

/-! ### `shift_rows` and `inv_shift_rows` (R84, R85) -/

theorem getElem_shiftRows (g : Grid) (r c : Fin 4) : (shiftRows g)[r][c] = g[r][c + r] :=
  Grid.getElem_ofFn _ r c

theorem getElem_invShiftRows (g : Grid) (r c : Fin 4) : (invShiftRows g)[r][c] = g[r][c - r] :=
  Grid.getElem_ofFn _ r c

/-- Row `r` of `shift_rows`, entry by entry. -/
theorem shiftRows_row (g : Grid) (r : Fin 4) :
    (shiftRows g)[r] = #v[g[r][0 + r], g[r][1 + r], g[r][2 + r], g[r][3 + r]] := by
  rw [Grid.row_eq]
  simp only [← getElem_shiftRows]
  rfl

/-- Row `r` of `inv_shift_rows`, entry by entry. -/
theorem invShiftRows_row (g : Grid) (r : Fin 4) :
    (invShiftRows g)[r] = #v[g[r][0 - r], g[r][1 - r], g[r][2 - r], g[r][3 - r]] := by
  rw [Grid.row_eq]
  simp only [← getElem_invShiftRows]
  rfl

theorem invShiftRows_shiftRows (g : Grid) : invShiftRows (shiftRows g) = g := by
  refine Grid.ext_entries (fun r c => ?_)
  simp only [getElem_invShiftRows, getElem_shiftRows, sub_add_cancel]

theorem shiftRows_invShiftRows (g : Grid) : shiftRows (invShiftRows g) = g := by
  refine Grid.ext_entries (fun r c => ?_)
  simp only [getElem_shiftRows, getElem_invShiftRows, add_sub_cancel_right]

/-- Four times a rotation by `r` is a rotation by a multiple of 4. -/
theorem shiftRows_four_times (g : Grid) : shiftRows (shiftRows (shiftRows (shiftRows g))) = g := by
  refine Grid.ext_entries (fun r c => ?_)
  have hturn : c + r + r + r + r = c := by decide +revert
  simp only [getElem_shiftRows, hturn]

/-! ### Products with a matrix (R86 to R88) -/

/-- The matrix whose row `i` is `k` rotated right by `i`. -/
def circulant (k : Vector Byte 4) : Fin 4 → Fin 4 → Byte := fun i j => k[j - i]

/-- The product of two matrices over the field. -/
def matrixProduct (m n : Fin 4 → Fin 4 → Byte) : Fin 4 → Fin 4 → Byte := fun i j =>
  multiply (m i 0) (n 0 j) ^^^ multiply (m i 1) (n 1 j) ^^^ multiply (m i 2) (n 2 j) ^^^ multiply (m i 3) (n 3 j)

/-- The identity matrix over the field. -/
def identityMatrix : Fin 4 → Fin 4 → Byte := fun i j => if i = j then 1 else 0

theorem getElem_mixWith (k : Vector Byte 4) (g : Grid) (i c : Fin 4) :
    (mixWith k g)[i][c] = matrixTimesColumn (circulant k) g i c :=
  Grid.getElem_ofFn _ i c

theorem circulant_mixCoefficients : circulant mixCoefficients = mixMatrix := by decide

theorem circulant_invMixCoefficients : circulant invMixCoefficients = invMixMatrix := by decide

theorem matrixTimesColumn_identityMatrix (g : Grid) (i c : Fin 4) :
    matrixTimesColumn identityMatrix g i c = g[i][c] := by
  have hentry (j : Fin 4) (x : Byte) : multiply (identityMatrix i j) x = if i = j then x else 0 := by
    rw [identityMatrix]
    split_ifs
    · exact one_multiply x
    · exact zero_multiply x
  simp only [matrixTimesColumn, hentry]
  fin_cases i <;> simp

/-- A product with one matrix after a product with another is the product with the product of the two. -/
theorem matrixTimesColumn_matrixTimesColumn {m n : Fin 4 → Fin 4 → Byte} {g h : Grid}
    (hh : ∀ i c : Fin 4, h[i][c] = matrixTimesColumn n g i c) (i c : Fin 4) :
    matrixTimesColumn m h i c = matrixTimesColumn (matrixProduct m n) g i c := by
  have hrow (j : Fin 4) : multiply (m i j) h[j][c]
      = multiply (multiply (m i j) (n j 0)) g[0][c] ^^^ multiply (multiply (m i j) (n j 1)) g[1][c]
        ^^^ multiply (multiply (m i j) (n j 2)) g[2][c] ^^^ multiply (multiply (m i j) (n j 3)) g[3][c] := by
    rw [hh, matrixTimesColumn]
    simp only [multiply_xor_right, multiply_assoc]
  show multiply (m i 0) h[(0 : Fin 4)][c] ^^^ multiply (m i 1) h[(1 : Fin 4)][c]
    ^^^ multiply (m i 2) h[(2 : Fin 4)][c] ^^^ multiply (m i 3) h[(3 : Fin 4)][c] = _
  simp only [hrow, matrixTimesColumn, matrixProduct, multiply_xor_left]
  ac_rfl

/-- Two mixings undo each other when the product of their matrices is the identity (R87). -/
theorem mixWith_mixWith_of_matrixProduct {k l : Vector Byte 4}
    (h : matrixProduct (circulant k) (circulant l) = identityMatrix) (g : Grid) : mixWith k (mixWith l g) = g := by
  refine Grid.ext_entries (fun i c => ?_)
  rw [getElem_mixWith, matrixTimesColumn_matrixTimesColumn (getElem_mixWith l g), h, matrixTimesColumn_identityMatrix]

theorem invMixColumns_mixColumns (g : Grid) : invMixColumns (mixColumns g) = g :=
  mixWith_mixWith_of_matrixProduct (by decide +kernel) g

theorem mixColumns_invMixColumns (g : Grid) : mixColumns (invMixColumns g) = g :=
  mixWith_mixWith_of_matrixProduct (by decide +kernel) g

theorem getElem_mixColumns (g : Grid) (i c : Fin 4) : (mixColumns g)[i][c] = matrixTimesColumn mixMatrix g i c := by
  rw [mixColumns, getElem_mixWith, circulant_mixCoefficients]

theorem getElem_invMixColumns (g : Grid) (i c : Fin 4) :
    (invMixColumns g)[i][c] = matrixTimesColumn invMixMatrix g i c := by
  rw [invMixColumns, getElem_mixWith, circulant_invMixCoefficients]

/-! ### `add_round_key` (R90) -/

theorem getElem_addRoundKey (g : Grid) (w : Vector Word 4) (i c : Fin 4) :
    (addRoundKey g w)[i][c] = g[i][c] ^^^ byteOf w[c] i :=
  Grid.getElem_ofFn _ i c

theorem addRoundKey_addRoundKey (g : Grid) (w : Vector Word 4) : addRoundKey (addRoundKey g w) w = g := by
  refine Grid.ext_entries (fun i c => ?_)
  rw [getElem_addRoundKey, getElem_addRoundKey, BitVec.xor_assoc, BitVec.xor_self, BitVec.xor_zero]

/-- Byte `i` of a Word as a shift: the Word moved right until that Byte is its last. -/
theorem byteOf_eq_ushiftRight (w : Word) (i : Fin 4) : byteOf w i = (w >>> (24 - 8 * i.val)).setWidth 8 := by
  refine BitVec.eq_of_getLsbD_eq (fun k hk => ?_)
  simp [byteOf, hk]

/-- A Word of the schedule store that exists. -/
theorem Schedule.word_eq_getElem (w : Schedule) {i : Nat} (h : i < 44) : Schedule.word w i = w[i] := by
  simp [Schedule.word, Vector.getD, h]

end Sys2Proof.Machine
end

section
/-! The nine transform commands (42_state_transforms.md R91 to R99): the grid each leaves, by the transform it names. -/

namespace Sys2Proof.Machine

/-! ### The grid a command leaves -/

theorem exec_subBytes {s : State} (hf : s.fatal = false) :
    exec .subBytes s = .next { s with st := subBytes s.st, status := 0 } :=
  runCommand_grid hf (fun s => subBytes s.st)

theorem exec_shiftRows {s : State} (hf : s.fatal = false) :
    exec .shiftRows s = .next { s with st := shiftRows s.st, status := 0 } :=
  runCommand_grid hf (fun s => shiftRows s.st)

theorem exec_invShiftRows {s : State} (hf : s.fatal = false) :
    exec .invShiftRows s = .next { s with st := invShiftRows s.st, status := 0 } :=
  runCommand_grid hf (fun s => invShiftRows s.st)

theorem exec_mixColumns {s : State} (hf : s.fatal = false) :
    exec .mixColumns s = .next { s with st := mixColumns s.st, status := 0 } :=
  runCommand_grid hf (fun s => mixColumns s.st)

theorem exec_invMixColumns {s : State} (hf : s.fatal = false) :
    exec .invMixColumns s = .next { s with st := invMixColumns s.st, status := 0 } :=
  runCommand_grid hf (fun s => invMixColumns s.st)

/-- `INV_SUB_BYTES` on the substitution of a grid leaves that grid. -/
theorem exec_invSubBytes {s : State} {g : Grid} (hf : s.fatal = false) (hg : subBytes g = s.st) :
    exec .invSubBytes s = .next { s with st := g, status := 0 } := by
  have hsearches : invSubBytes s.st = .ok g := hg ▸ invSubBytes_subBytes g
  exact runCommand_ok (t := { s with st := g }) hf (by simp only [hsearches]) rfl

/-- `ADD_ROUND_KEY r` with `r` in the declared schedule. -/
theorem exec_addRoundKey {s : State} {r : BitVec 4} (hf : s.fatal = false) (hr : r.toNat ≤ 10)
    (hlen : 4 * r.toNat + 4 ≤ s.rklen.toNat) :
    exec (.addRoundKey r) s = .next { s with st := addRoundKey s.st (roundKey s.rk r.toNat), status := 0 } :=
  runCommand_ok (t := { s with st := addRoundKey s.st (roundKey s.rk r.toNat) }) hf
    (by simp only [if_neg (Nat.not_lt.2 hr), if_neg (Nat.not_lt.2 hlen)]) rfl

/-- Two commands in a row of which the second takes the grid back. -/
theorem runCommands_pair_of_grid_restored {i j : Instr} {s : State} {g h : Grid}
    (hi : exec i s = .next { s with st := g, status := 0 })
    (hj : exec j { s with st := g, status := 0 } = .next { s with st := h, status := 0 }) (hh : h = s.st) :
    runCommands [i, j] s = .next { s with status := 0 } := by
  rw [runCommands_cons hi, runCommands_cons hj, runCommands, hh]

/-! ### `ST_LOAD` and `ST_STORE` (R91, R92) -/

/-- A length register holds 16 as a number when it holds the Word 16. -/
theorem toNat_eq_sixteen_iff (w : Word) : w.toNat = 16 ↔ w = 16 := (BitVec.toNat_eq (y := 16)).symm

theorem exec_stLoad_wrongLength {s : State} (hf : s.fatal = false) (hlen : s.slen ≠ 16) :
    EndsInError .stLoad s 2 :=
  runCommand_error (e := .lengthError) hf (if_pos (mt (toNat_eq_sixteen_iff _).1 hlen)) (by decide)

theorem exec_stLoad_outside {s : State} (hf : s.fatal = false) (hlen : s.slen = 16)
    (hout : s.memSize < s.sptr.toNat + 16) : EndsInError .stLoad s 4 :=
  runCommand_error (e := .accessFault) hf (by simp [hlen, State.inMem, hout]) (by decide)

theorem exec_stLoad {s : State} (hf : s.fatal = false) (hlen : s.slen = 16)
    (hin : s.sptr.toNat + 16 ≤ s.memSize) :
    exec .stLoad s = .next { s with st := bytesToState s.sourceBlock, status := 0 } :=
  runCommand_ok (t := { s with st := bytesToState s.sourceBlock }) hf (by simp [hlen, State.inMem, hin]) rfl

/-- Entry `r`, `c` of the grid of the source block is the Byte at `SPTR + r + 4c` (R80). -/
theorem getElem_bytesToState_sourceBlock (s : State) (r c : Fin 4) :
    (bytesToState s.sourceBlock)[r][c] = s.byteAt (s.sptr.toNat + (r.val + 4 * c.val)) := by
  have hk : r.val + 4 * c.val < (s.memRead s.sptr.toNat 16).length := by
    rw [State.length_memRead]
    omega
  rw [getElem_bytesToState, State.sourceBlock, List.getD_eq_getElem _ _ hk, State.getElem_memRead]

/-- Settles O35: the tests of the body in their order, and the entries of the source block's grid. -/
theorem stLoadResult : Obligations.StLoadResult := fun s =>
  ⟨⟨rfl, rfl⟩, exec_refusedWhenFatal _ s, fun hf => ⟨exec_stLoad_wrongLength hf, exec_stLoad_outside hf,
    fun hlen hin => ⟨_, exec_stLoad hf hlen hin, getElem_bytesToState_sourceBlock s⟩⟩⟩

theorem exec_stStore_outside {s : State} (hf : s.fatal = false) (hout : s.memSize < s.dptr.toNat + 16) :
    EndsInError .stStore s 4 :=
  runCommand_store_error (out := stateToBytes s.st) hf rfl (by rwa [length_stateToBytes])

theorem exec_stStore {s : State} (hf : s.fatal = false) (hin : s.dptr.toNat + 16 ≤ s.memSize) :
    exec .stStore s = .next { s.memWrite s.dptr.toNat (stateToBytes s.st) with
      dlen := BitVec.ofNat 32 (stateToBytes s.st).length, status := 0 } :=
  runCommand_store hf rfl (by rwa [length_stateToBytes])

/-- The state a storing command leaves has the result at `DPTR` and everything else as before. -/
theorem storedAt_memWrite (s : State) (out : List Byte) :
    StoredAt s { s.memWrite s.dptr.toNat out with dlen := BitVec.ofNat 32 out.length, status := 0 } s.dptr.toNat out :=
  ⟨rfl, State.memRead_memWrite s _ out, fun _ hx => State.byteAt_memWrite_outside s out hx⟩

/-- Each Byte of a stored result stands at its address. -/
theorem StoredAt.byteAt_eq_getElem {s t : State} {addr k : Nat} {out : List Byte} (h : StoredAt s t addr out)
    (hk : k < out.length) : t.byteAt (addr + k) = out[k] := by
  obtain ⟨-, hread, -⟩ := h
  rw [← State.getElem_memRead t addr out.length k (by simpa using hk)]
  exact List.getElem_of_eq hread _

/-- Settles O36: the store of the sixteen Bytes of the grid, or its destination check. -/
theorem stStoreResult : Obligations.StStoreResult := by
  refine fun s => ⟨⟨rfl, rfl⟩, exec_refusedWhenFatal _ s, fun hf => ⟨exec_stStore_outside hf, fun hin => ?_⟩⟩
  refine ⟨_, stateToBytes s.st, exec_stStore hf hin, storedAt_memWrite s _, length_stateToBytes _, fun r c => ?_⟩
  have hk : r.val + 4 * c.val < (stateToBytes s.st).length := by
    rw [length_stateToBytes]
    omega
  rw [(storedAt_memWrite s (stateToBytes s.st)).byteAt_eq_getElem hk, getElem_stateToBytes_entry]

/-! ### Substitution, shift and mixing (R93 to R98) -/

/-- Settles O37: the grid left is `sub_bytes`, entry by entry. -/
theorem subBytesResult : Obligations.SubBytesResult := fun s =>
  ⟨⟨rfl, rfl⟩, exec_refusedWhenFatal _ s, fun hf => ⟨_, exec_subBytes hf, getElem_subBytes s.st⟩⟩

/-- Settles O38: `ST` is the substitution of a grid, and the searches find the entries of that grid. -/
theorem invSubBytesResult : Obligations.InvSubBytesResult := by
  refine fun s => ⟨⟨rfl, rfl⟩, exec_refusedWhenFatal _ s, fun hf => ?_, invSubBytes_subBytes s.st⟩
  obtain ⟨g, hg⟩ := subBytes_surjective s.st
  refine ⟨g, exec_invSubBytes hf hg, fun r c => ?_, hg⟩
  rw [← hg, getElem_subBytes, inverseSbox_forwardSbox]

/-- Settles O39: the rows of `shift_rows`, whose fourth iterate is the identity. -/
theorem shiftRowsResult : Obligations.ShiftRowsResult := by
  refine fun s => ⟨⟨rfl, rfl⟩, exec_refusedWhenFatal _ s, fun hf => ⟨⟨_, exec_shiftRows hf, ?_, ?_, ?_, ?_⟩, ?_⟩⟩
  · exact (shiftRows_row s.st 0).trans (Grid.row_eq s.st 0).symm
  · exact shiftRows_row s.st 1
  · exact shiftRows_row s.st 2
  · exact shiftRows_row s.st 3
  · have hagain (g : Grid) : exec .shiftRows { s with st := g, status := 0 }
        = .next { s with st := shiftRows g, status := 0 } := exec_shiftRows (State.fatal_of_status rfl)
    rw [runCommands_cons (exec_shiftRows hf), runCommands_cons (hagain _), runCommands_cons (hagain _),
      runCommands_cons (hagain _), shiftRows_four_times, runCommands]

/-- Settles O40: the rows of `inv_shift_rows`, and that the two shifts undo each other. -/
theorem invShiftRowsResult : Obligations.InvShiftRowsResult := by
  refine fun s => ⟨⟨rfl, rfl⟩, exec_refusedWhenFatal _ s,
    fun hf => ⟨⟨_, exec_invShiftRows hf, ?_, ?_, ?_, ?_⟩, ?_, ?_⟩⟩
  · exact (invShiftRows_row s.st 0).trans (Grid.row_eq s.st 0).symm
  · exact invShiftRows_row s.st 1
  · exact invShiftRows_row s.st 2
  · exact invShiftRows_row s.st 3
  · exact runCommands_pair_of_grid_restored (exec_shiftRows hf) (exec_invShiftRows (State.fatal_of_status rfl))
      (invShiftRows_shiftRows s.st)
  · exact runCommands_pair_of_grid_restored (exec_invShiftRows hf) (exec_shiftRows (State.fatal_of_status rfl))
      (shiftRows_invShiftRows s.st)

/-- Settles O41: the grid left is the product of every column with the matrix of R86. -/
theorem mixColumnsResult : Obligations.MixColumnsResult := fun s =>
  ⟨⟨rfl, rfl⟩, exec_refusedWhenFatal _ s, fun hf => ⟨_, exec_mixColumns hf, getElem_mixColumns s.st⟩⟩

/-- Settles O42: the product with the matrix of R87, and that the two mixings undo each other. -/
theorem invMixColumnsResult : Obligations.InvMixColumnsResult := by
  refine fun s => ⟨⟨rfl, rfl⟩, exec_refusedWhenFatal _ s,
    fun hf => ⟨⟨_, exec_invMixColumns hf, getElem_invMixColumns s.st⟩, ?_, ?_⟩⟩
  · exact runCommands_pair_of_grid_restored (exec_mixColumns hf) (exec_invMixColumns (State.fatal_of_status rfl))
      (invMixColumns_mixColumns s.st)
  · exact runCommands_pair_of_grid_restored (exec_invMixColumns hf) (exec_mixColumns (State.fatal_of_status rfl))
      (mixColumns_invMixColumns s.st)

/-! ### `ADD_ROUND_KEY` (R99) -/

/-- The decoder gives `ADD_ROUND_KEY` no round-key index above 10 (R46). -/
theorem toNat_le_ten_of_decode_addRoundKey {w : Word} {r : BitVec 4} (h : decode w = .ok (.addRoundKey r)) :
    r.toNat ≤ 10 := by
  obtain ⟨hop, -, hrange⟩ := fields_of_decode_ok h
  obtain ⟨-, ⟨-, -, hle, hi⟩ | ⟨-, -, hi⟩ | ⟨-, -, hi⟩ | ⟨-, -, hplain⟩⟩ := (decode_ok_iff w _).1 h
  · cases hi
    exact hle
  · cases hi
  · cases hi
  · have hnone : plainCommand (Instr.addRoundKey r).opcode = none := rfl
    rw [hop, hnone] at hplain
    cases hplain

/-- The fields of R45 in the word of `ADD_ROUND_KEY r`, evaluated for the 16 values of `r`. -/
theorem fields_addRoundKeyWord (r : BitVec 4) :
    zeroField (0x00000038 ||| (r.setWidth 32 <<< 8)) = 0 ∧ opField (0x00000038 ||| (r.setWidth 32 <<< 8)) = 0x38
      ∧ npField (0x00000038 ||| (r.setWidth 32 <<< 8)) = false
      ∧ rField (0x00000038 ||| (r.setWidth 32 <<< 8)) = r := by
  decide +revert

/-- The word of `ADD_ROUND_KEY r` is decoded as that command, for each of the eleven round keys. -/
theorem encodes_addRoundKey {r : BitVec 4} (hr : r.toNat ≤ 10) :
    Encodes (0x00000038 ||| (r.setWidth 32 <<< 8)) (.addRoundKey r) := by
  obtain ⟨hzero, hop, hnp, hrField⟩ := fields_addRoundKeyWord r
  exact ⟨(decode_ok_iff _ _).2 ⟨hzero, .inl ⟨hop, hnp, by rwa [hrField], by rw [hrField]⟩⟩, rfl⟩

theorem exec_addRoundKey_shortSchedule {s : State} {r : BitVec 4} (hf : s.fatal = false) (hr : r.toNat ≤ 10)
    (hlen : s.rklen.toNat < 4 * r.toNat + 4) : EndsInError (.addRoundKey r) s 2 :=
  runCommand_error (e := .lengthError) hf (by simp only [if_neg (Nat.not_lt.2 hr), if_pos hlen]) (by decide)

/-- Byte `i` of Word `c` of a round key, read from the schedule store (R90, R105). -/
theorem byteOf_roundKey (w : Schedule) (r : Nat) (i c : Fin 4) (h : 4 * r + c.val < 44) :
    byteOf (roundKey w r)[c] i = (w[4 * r + c.val] >>> (24 - 8 * i.val)).setWidth 8 := by
  rw [getElem_roundKey, Schedule.word_eq_getElem w h, byteOf_eq_ushiftRight]

/-- Settles O43: the tests of the body in their order, the entries of `add_round_key`, and that XOR with one round key
twice cancels. -/
theorem addRoundKeyResult : Obligations.AddRoundKeyResult := by
  refine fun s r => ⟨fun hr w hw => ?_, fun hr => ⟨encodes_addRoundKey hr, exec_refusedWhenFatal _ s,
    fun hf => ⟨exec_addRoundKey_shortSchedule hf hr, fun hlen => ⟨⟨_, exec_addRoundKey hf hr hlen, ?_⟩, ?_⟩⟩⟩⟩
  · exact absurd (toNat_le_ten_of_decode_addRoundKey hw) (Nat.not_le.2 hr)
  · intro i c h
    rw [getElem_addRoundKey, byteOf_roundKey s.rk r.toNat i c h]
  · exact runCommands_pair_of_grid_restored (exec_addRoundKey hf hr hlen)
      (exec_addRoundKey (State.fatal_of_status rfl) hr hlen) (addRoundKey_addRoundKey s.st _)

end Sys2Proof.Machine
end

section
/-! The key schedule and `KEY_EXPAND` (43_key_schedule.md R100 to R107). `expandWords` only ever appends, so a Word of
the schedule is what the recurrence of R104 says of the Words before it. The recurrence is a XOR, so it also gives Word
`i - 4` from Words `i` and `i - 1`: four Words in a row lead back to the key. -/

namespace Sys2Proof.Machine

/-! ### The functions of one Word (R100 to R103) -/

theorem rotWord_eq_rotateLeft (w : Word) : rotWord w = w.rotateLeft 8 :=
  (BitVec.rotateLeft_eq_rotateLeftAux_of_lt (by decide)).symm

theorem doubleTimes_eq_iterate (n : Nat) (v : Byte) : doubleTimes n v = double^[n] v := by
  induction n generalizing v with
  | zero => rfl
  | succ n ih => exact ih (double v)

theorem rcon_eq_iterate (r : Nat) : rcon r = (double^[r - 1] 1).setWidth 32 <<< 24 := by
  rw [rcon, doubleTimes_eq_iterate]

/-! ### The Words of the schedule (R104) -/

/-- The Words already made stay in front of those made later. -/
theorem expandWords_prefix (k : List Byte) {m n : Nat} (h : m ≤ n) : expandWords k m <+: expandWords k n := by
  induction n, h using Nat.le_induction with
  | base => exact List.prefix_rfl
  | succ n _ ih => exact ih.trans (List.prefix_append _ _)

/-- A schedule is the 44 Words of the expansion. -/
theorem word_expandKey (k : List Byte) {i : Nat} (hi : i < 44) :
    Schedule.word (expandKey k) i = (expandWords k 44).getD i 0 := by
  rw [Schedule.word_eq_getElem _ hi, expandKey, Vector.getElem_ofFn]

/-- Word `i` of the schedule is Word `i` of the expansion as soon as that is made. -/
theorem word_expandKey_eq_getD (k : List Byte) {i n : Nat} (hi : i < n) (hn : n ≤ 44) :
    Schedule.word (expandKey k) i = (expandWords k n).getD i 0 := by
  have hmade : i < (expandWords k n).length := by rwa [length_expandWords]
  rw [word_expandKey k (by omega), List.getD_eq_getElem _ _ hmade, (expandWords_prefix k hn).getElem hmade]
  exact List.getD_eq_getElem _ _ _

/-- The Word the expansion appends. -/
theorem getD_expandWords_last (k : List Byte) (i : Nat) : (expandWords k (i + 1)).getD i 0
    = if i < 4 then keyWord k i
      else (expandWords k i).getD (i - 4) 0 ^^^ scheduleTemp i ((expandWords k i).getD (i - 1) 0) := by
  simp [expandWords, List.getD_eq_getElem?_getD]

/-- Words 0 to 3 of the schedule are the key's. -/
theorem word_expandKey_key (k : List Byte) {i : Nat} (hi : i < 4) : Schedule.word (expandKey k) i = keyWord k i := by
  rw [word_expandKey_eq_getD k (Nat.lt_succ_self i) (by omega), getD_expandWords_last, if_pos hi]

/-- The recurrence of the schedule from Word 4 on. -/
theorem word_expandKey_recurrence (k : List Byte) {i : Nat} (h4 : 4 ≤ i) (hi : i < 44) :
    Schedule.word (expandKey k) i
      = Schedule.word (expandKey k) (i - 4) ^^^ scheduleTemp i (Schedule.word (expandKey k) (i - 1)) := by
  rw [word_expandKey_eq_getD k (Nat.lt_succ_self i) hi, getD_expandWords_last, if_neg (by omega),
    word_expandKey_eq_getD k (n := i) (by omega) hi.le, word_expandKey_eq_getD k (n := i) (by omega) hi.le]

/-! ### `KEY_EXPAND` (R106) -/

theorem exec_keyExpand_wrongLength {s : State} (hf : s.fatal = false) (hlen : s.klen ≠ 16) :
    EndsInError .keyExpand s 2 :=
  runCommand_error (e := .lengthError) hf (if_pos (mt (toNat_eq_sixteen_iff _).1 hlen)) (by decide)

theorem exec_keyExpand_outside {s : State} (hf : s.fatal = false) (hlen : s.klen = 16)
    (hout : s.memSize < s.kptr.toNat + 16) : EndsInError .keyExpand s 4 :=
  runCommand_error (e := .accessFault) hf (by simp [hlen, State.inMem, hout]) (by decide)

theorem exec_keyExpand {s : State} (hf : s.fatal = false) (hlen : s.klen = 16)
    (hin : s.kptr.toNat + 16 ≤ s.memSize) :
    exec .keyExpand s = .next { s with rk := expandKey s.keyBytes, rklen := 44, status := 0 } :=
  runCommand_ok (t := { s with rk := expandKey s.keyBytes, rklen := 44 }) hf
    (by simp [hlen, State.inMem, hin, scheduleLength]) rfl

theorem getD_keyBytes (s : State) {j : Nat} (hj : j < 16) : s.keyBytes.getD j 0 = s.byteAt (s.kptr.toNat + j) := by
  have hlen : j < (s.memRead s.kptr.toNat 16).length := by rwa [State.length_memRead]
  rw [State.keyBytes, List.getD_eq_getElem _ _ hlen, State.getElem_memRead]

/-- Word `i` of the key at `KPTR`, most significant Byte at the lowest address (R32, R100). -/
theorem keyWord_keyBytes (s : State) {i : Nat} (hi : i < 4) : keyWord s.keyBytes i
    = s.byteAt (s.kptr.toNat + 4 * i) ++ s.byteAt (s.kptr.toNat + (4 * i + 1))
      ++ s.byteAt (s.kptr.toNat + (4 * i + 2)) ++ s.byteAt (s.kptr.toNat + (4 * i + 3)) := by
  rw [keyWord, getD_keyBytes s (by omega), getD_keyBytes s (by omega), getD_keyBytes s (by omega),
    getD_keyBytes s (by omega)]
  rfl

/-- Settles O44: the tests of the body in their order, then the key's Words and the recurrence, which makes its `temp`
from the Word before, on every fourth Word by rotation, substitution and round constant. -/
theorem keyExpandResult : Obligations.KeyExpandResult := by
  refine fun s => ⟨⟨rfl, rfl⟩, exec_refusedWhenFatal _ s, fun hf => ⟨exec_keyExpand_wrongLength hf,
    exec_keyExpand_outside hf, fun hlen hin => ⟨_, exec_keyExpand hf hlen hin, fun i hi => ?_,
    fun i h4 hi => ⟨fun hmod => ?_, ?_⟩⟩⟩⟩
  · rw [← Schedule.word_eq_getElem, word_expandKey_key _ hi, keyWord_keyBytes s hi]
  · simp only [← Schedule.word_eq_getElem]
    rw [word_expandKey_recurrence _ h4 hi, scheduleTemp, if_neg hmod]
  · rintro hmod x rfl
    simp only [← Schedule.word_eq_getElem]
    rw [word_expandKey_recurrence _ h4 hi, scheduleTemp, if_pos hmod, subWord_bytes, rotWord_eq_rotateLeft,
      rcon_eq_iterate, BitVec.xor_assoc]

/-! ### The recurrence run backwards (R107) -/

/-- Word `i` of a schedule from Words `i + 3` and `i + 4`. -/
theorem word_expandKey_back (k : List Byte) {i : Nat} (hi : i < 40) : Schedule.word (expandKey k) i
    = Schedule.word (expandKey k) (i + 4) ^^^ scheduleTemp (i + 4) (Schedule.word (expandKey k) (i + 3)) := by
  have hrec := word_expandKey_recurrence k (i := i + 4) (by omega) (by omega)
  rw [Nat.add_sub_cancel, show i + 4 - 1 = i + 3 from rfl] at hrec
  rw [hrec, BitVec.xor_assoc, BitVec.xor_self, BitVec.xor_zero]

/-- The schedules of two keys have the same four Words from Word `i` on. -/
def SameFourWords (k k' : List Byte) (i : Nat) : Prop :=
  ∀ c, c < 4 → Schedule.word (expandKey k) (i + c) = Schedule.word (expandKey k') (i + c)

theorem SameFourWords.back {k k' : List Byte} {i : Nat} (hi : i < 40) (h : SameFourWords k k' (i + 1)) :
    SameFourWords k k' i := by
  intro c hc
  cases c with
  | zero =>
    have h3 : Schedule.word (expandKey k) (i + 3) = Schedule.word (expandKey k') (i + 3) := h 2 (by decide)
    have h4 : Schedule.word (expandKey k) (i + 4) = Schedule.word (expandKey k') (i + 4) := h 3 (by decide)
    rw [Nat.add_zero, word_expandKey_back k hi, word_expandKey_back k' hi, h3, h4]
  | succ c =>
    rw [← Nat.succ_add_eq_add_succ]
    exact h c (by omega)

theorem SameFourWords.back_to_key {k k' : List Byte} {i : Nat} (hi : i ≤ 40) (h : SameFourWords k k' i) :
    SameFourWords k k' 0 := by
  induction i with
  | zero => exact h
  | succ i ih => exact ih (by omega) (h.back hi)

/-! ### The key from its schedule (R107) -/

theorem bitVec_append_inj {m n : Nat} {x x' : BitVec m} {y y' : BitVec n} (h : x ++ y = x' ++ y') :
    x = x' ∧ y = y' := by
  have hhigh := congrArg (BitVec.extractLsb' n m) h
  have hlow := congrArg (BitVec.setWidth n) h
  rw [BitVec.extractLsb'_append_eq_left, BitVec.extractLsb'_append_eq_left] at hhigh
  rw [BitVec.setWidth_append_eq_right, BitVec.setWidth_append_eq_right] at hlow
  exact ⟨hhigh, hlow⟩

theorem pack_inj {a b c d a' b' c' d' : Byte} (h : pack a b c d = pack a' b' c' d') :
    a = a' ∧ b = b' ∧ c = c' ∧ d = d' := by
  obtain ⟨habc, hd⟩ := bitVec_append_inj h
  obtain ⟨hab, hc⟩ := bitVec_append_inj habc
  obtain ⟨ha, hb⟩ := bitVec_append_inj hab
  exact ⟨ha, hb, hc, hd⟩

/-- A Word of the key holds its four Bytes (R100). -/
theorem getD_eq_of_keyWord_eq {k k' : List Byte} {i : Nat} (h : keyWord k i = keyWord k' i) (c : Fin 4) :
    k.getD (4 * i + c.val) 0 = k'.getD (4 * i + c.val) 0 := by
  obtain ⟨h0, h1, h2, h3⟩ := pack_inj h
  fin_cases c
  exacts [h0, h1, h2, h3]

/-- The first four Words of the schedule are the key (R105). -/
theorem SameFourWords.key_eq {k k' : List Byte} (hk : k.length = 16) (hk' : k'.length = 16)
    (h : SameFourWords k k' 0) : k = k' := by
  refine List.ext_getElem (by rw [hk, hk']) (fun j hj hj' => ?_)
  have hword : keyWord k (j / 4) = keyWord k' (j / 4) := by
    have hj4 : j / 4 < 4 := by omega
    rw [← word_expandKey_key k hj4, ← word_expandKey_key k' hj4, ← Nat.zero_add (j / 4)]
    exact h _ hj4
  have hbyte := getD_eq_of_keyWord_eq hword ⟨j % 4, Nat.mod_lt _ (by decide)⟩
  rwa [Nat.div_add_mod, List.getD_eq_getElem _ _ hj, List.getD_eq_getElem _ _ hj'] at hbyte

/-- Round key `r` is Words `4r` to `4r + 3`. -/
theorem SameFourWords.of_roundKey {k k' : List Byte} {r : Nat}
    (h : roundKey (expandKey k) r = roundKey (expandKey k') r) : SameFourWords k k' (4 * r) := by
  intro c hc
  rw [← getElem_roundKey (expandKey k) r ⟨c, hc⟩, h, getElem_roundKey]

/-- A round key leads back to the key. -/
theorem key_eq_of_roundKey_eq {k k' : List Byte} (hk : k.length = 16) (hk' : k'.length = 16) {r : Nat} (hr : r ≤ 10)
    (h : roundKey (expandKey k) r = roundKey (expandKey k') r) : k = k' :=
  ((SameFourWords.of_roundKey h).back_to_key (by omega)).key_eq hk hk'

/-- Settles O45: any round key, of equal schedules round key 0, leads back to the key, and the key determines the
schedule. -/
theorem roundKeyDeterminesSchedule : Obligations.RoundKeyDeterminesSchedule := fun _ _ hk hk' =>
  ⟨fun h => key_eq_of_roundKey_eq hk hk' (Nat.zero_le 10) (congrArg (roundKey · 0) h),
    fun _ hr h => congrArg expandKey (key_eq_of_roundKey_eq hk hk' hr h)⟩

end Sys2Proof.Machine
end

section
/-! The block cipher on one block (44_block_cipher.md R110 to R112). Each step of the encryption has an inverse, so the
decryption takes an encryption back round by round, and every block is the encryption of a block. -/

namespace Sys2Proof.Machine

/-- `encrypt_block` between its two conversions. -/
def encryptGrid (w : Schedule) (g : Grid) : Grid :=
  addRoundKey (shiftRows (subBytes (encryptRounds w 9 (addRoundKey g (roundKey w 0))))) (roundKey w 10)

theorem encryptBlock_eq_encryptGrid (b : List Byte) (w : Schedule) :
    encryptBlock b w = stateToBytes (encryptGrid w (bytesToState b)) := rfl

/-! ### Decryption after encryption -/

/-- The first two steps of a decryption round undo the first two steps of an encryption round. -/
theorem invSubBytes_invShiftRows_shiftRows_subBytes (g : Grid) :
    invSubBytes (invShiftRows (shiftRows (subBytes g))) = .ok g := by
  rw [invShiftRows_shiftRows, invSubBytes_subBytes]

/-- `n` rounds of decryption take back `n` rounds of encryption. A decryption round begins inside an encryption round,
after its `sub_bytes` and `shift_rows`. -/
theorem decryptRounds_encryptRounds (w : Schedule) (n : Nat) (g : Grid) :
    decryptRounds w n (shiftRows (subBytes (encryptRounds w n g))) = .ok (shiftRows (subBytes g)) := by
  induction n with
  | zero => rfl
  | succ n ih =>
    simp only [decryptRounds, invSubBytes_invShiftRows_shiftRows_subBytes]
    rw [encryptRounds, addRoundKey_addRoundKey, invMixColumns_mixColumns, ih]

theorem decryptBlock_encryptBlock {b : List Byte} (hb : IsBlock b) (w : Schedule) :
    decryptBlock (encryptBlock b w) w = .ok b := by
  simp only [decryptBlock, encryptBlock, bytesToState_stateToBytes, addRoundKey_addRoundKey,
    decryptRounds_encryptRounds, invSubBytes_invShiftRows_shiftRows_subBytes, stateToBytes_bytesToState hb]

/-! ### Every block is an encryption -/

theorem addRoundKey_surjective (k : Vector Word 4) : Function.Surjective (fun g => addRoundKey g k) :=
  Function.Involutive.surjective (fun g => addRoundKey_addRoundKey g k)

theorem shiftRows_surjective : Function.Surjective shiftRows :=
  Function.RightInverse.surjective shiftRows_invShiftRows

theorem mixColumns_surjective : Function.Surjective mixColumns :=
  Function.RightInverse.surjective mixColumns_invMixColumns

theorem encryptRounds_surjective (w : Schedule) (n : Nat) : Function.Surjective (encryptRounds w n) := by
  induction n with
  | zero => exact Function.surjective_id
  | succ n ih =>
    exact (addRoundKey_surjective (roundKey w (n + 1))).comp
      (mixColumns_surjective.comp (shiftRows_surjective.comp (subBytes_surjective.comp ih)))

theorem encryptGrid_surjective (w : Schedule) : Function.Surjective (encryptGrid w) :=
  (addRoundKey_surjective (roundKey w 10)).comp (shiftRows_surjective.comp (subBytes_surjective.comp
    ((encryptRounds_surjective w 9).comp (addRoundKey_surjective (roundKey w 0)))))

/-- `decrypt_block` succeeds on every block, with the block whose encryption it is (R112). -/
theorem exists_decryptBlock_eq_ok {b : List Byte} (hb : IsBlock b) (w : Schedule) :
    ∃ d, IsBlock d ∧ decryptBlock b w = .ok d ∧ encryptBlock d w = b := by
  obtain ⟨g, hg⟩ := encryptGrid_surjective w (bytesToState b)
  have hblock : IsBlock (stateToBytes g) := length_stateToBytes g
  have hencrypt : encryptBlock (stateToBytes g) w = b := by
    rw [encryptBlock_eq_encryptGrid, bytesToState_stateToBytes, hg, stateToBytes_bytesToState hb]
  exact ⟨stateToBytes g, hblock, hencrypt ▸ decryptBlock_encryptBlock hblock w, hencrypt⟩

/-- Settles O48: the rounds of the decryption take back those of the encryption, and every block is an encryption. -/
theorem blockRoundTrip : Obligations.BlockRoundTrip := fun _ w hb =>
  ⟨decryptBlock_encryptBlock hb w, exists_decryptBlock_eq_ok hb w⟩

end Sys2Proof.Machine
end

section
/-! `BLK_ENC` and `BLK_DEC` (44_block_cipher.md R113, R114): both test lengths and source and store one block, so their
errors and their frame are proved once, of any command that stores a block. -/

namespace Sys2Proof.Machine

/-- The state a storing command leaves after writing `out` at `DPTR` (60_exceptions.md R147 step 7). -/
def State.stored (s : State) (out : List Byte) : State :=
  { s.memWrite s.dptr.toNat out with dlen := BitVec.ofNat 32 out.length, status := 0 }

theorem storedAt_stored (s : State) (out : List Byte) : StoredAt s (s.stored out) s.dptr.toNat out :=
  storedAt_memWrite s out

/-- In `s` the command makes the tests of R113 and stores the block `out`. -/
def StoresBlock (i : Instr) (s : State) (out : List Byte) : Prop :=
  IsBlock out ∧ ∃ body, exec i s = runCommand body s
    ∧ body s = if !s.blockLengthsOk then .error .lengthError
        else if !s.inMem s.sptr 16 then .error .accessFault
        else s.storeResult out

theorem isBlock_sourceBlock (s : State) : IsBlock s.sourceBlock := State.length_memRead s _ 16

theorem storesBlock_blkEnc (s : State) : StoresBlock .blkEnc s (encryptBlock s.sourceBlock s.rk) :=
  ⟨length_encryptBlock _ _, _, rfl, rfl⟩

theorem storesBlock_blkDec {s : State} {out : List Byte} (hout : IsBlock out)
    (h : decryptBlock s.sourceBlock s.rk = .ok out) : StoresBlock .blkDec s out :=
  ⟨hout, _, rfl, by simp only [h]⟩

theorem State.blockLengthsOk_iff (s : State) : s.blockLengthsOk = true ↔ s.slen = 16 ∧ s.rklen = 44 := by
  have hrklen : s.rklen.toNat = 44 ↔ s.rklen = 44 := (BitVec.toNat_eq (y := 44)).symm
  simp [State.blockLengthsOk, scheduleLength, toNat_eq_sixteen_iff, hrklen]

section
variable {i : Instr} {s : State} {out : List Byte}

theorem StoresBlock.wrongLength (h : StoresBlock i s out) (hf : s.fatal = false)
    (hlen : s.slen ≠ 16 ∨ s.rklen ≠ 44) : EndsInError i s 2 := by
  obtain ⟨-, body, hexec, hbody⟩ := h
  have hfails : ¬ s.blockLengthsOk = true := by
    rw [State.blockLengthsOk_iff]
    tauto
  exact hexec.trans (runCommand_error (e := .lengthError) hf (by simp [hbody, hfails]) (by decide))

/-- With the lengths right and the source inside `MEM` the command is the store of its result. -/
theorem StoresBlock.body_of_source (h : StoresBlock i s out) (hn : s.slen = 16) (hk : s.rklen = 44)
    (hsrc : s.sptr.toNat + 16 ≤ s.memSize) :
    ∃ body, exec i s = runCommand body s ∧ body s = s.storeResult out := by
  obtain ⟨-, body, hexec, hbody⟩ := h
  have hlen : s.blockLengthsOk = true := s.blockLengthsOk_iff.2 ⟨hn, hk⟩
  exact ⟨body, hexec, by simp [hbody, hlen, State.inMem, hsrc]⟩

theorem StoresBlock.outside (h : StoresBlock i s out) (hf : s.fatal = false) (hn : s.slen = 16) (hk : s.rklen = 44)
    (hout : s.memSize < s.sptr.toNat + 16 ∨ s.memSize < s.dptr.toNat + 16) : EndsInError i s 4 := by
  by_cases hsrc : s.sptr.toNat + 16 ≤ s.memSize
  · obtain ⟨body, hexec, hbody⟩ := h.body_of_source hn hk hsrc
    obtain ⟨hblock, -⟩ := h
    have hdst : s.memSize < s.dptr.toNat + out.length := by
      rw [hblock]
      omega
    exact hexec.trans (runCommand_store_error hf hbody hdst)
  · obtain ⟨-, body, hexec, hbody⟩ := h
    have hlen : s.blockLengthsOk = true := s.blockLengthsOk_iff.2 ⟨hn, hk⟩
    exact hexec.trans (runCommand_error (e := .accessFault) hf (by simp [hbody, hlen, State.inMem, hsrc]) (by decide))

theorem StoresBlock.exec_eq (h : StoresBlock i s out) (hf : s.fatal = false) (hn : s.slen = 16) (hk : s.rklen = 44)
    (hsrc : s.sptr.toNat + 16 ≤ s.memSize) (hdst : s.dptr.toNat + 16 ≤ s.memSize) :
    exec i s = .next (s.stored out) := by
  obtain ⟨body, hexec, hbody⟩ := h.body_of_source hn hk hsrc
  obtain ⟨hblock, -⟩ := h
  exact hexec.trans (runCommand_store hf hbody (by rwa [hblock]))

end

/-- Settles O46: the tests and the store of a command that stores a block; the nine rounds of `encrypt_block` are the
fold over the round numbers. -/
theorem blkEncResult : Obligations.BlkEncResult := by
  refine fun s => ⟨⟨rfl, rfl⟩, exec_refusedWhenFatal _ s, fun hf => ?_⟩
  have hstores := storesBlock_blkEnc s
  exact ⟨hstores.wrongLength hf, fun hn hk => ⟨hstores.outside hf hn hk, fun hsrc hdst =>
    ⟨_, _, hstores.exec_eq hf hn hk hsrc hdst, storedAt_stored s _, length_encryptBlock _ _, rfl⟩⟩⟩

/-- Settles O47: the decryption of the source block succeeds, with the block whose encryption is the source, and
`BLK_DEC` stores that block. -/
theorem blkDecResult : Obligations.BlkDecResult := by
  refine fun s => ⟨⟨rfl, rfl⟩, exec_refusedWhenFatal _ s, fun hf => ?_⟩
  obtain ⟨out, hout, hdecrypt, hencrypt⟩ := exists_decryptBlock_eq_ok (isBlock_sourceBlock s) s.rk
  have hstores := storesBlock_blkDec hout hdecrypt
  exact ⟨hstores.wrongLength hf, fun hn hk => ⟨hstores.outside hf hn hk, fun hsrc hdst =>
    ⟨_, out, hstores.exec_eq hf hn hk hsrc hdst, storedAt_stored s out, hout, hdecrypt, hencrypt⟩⟩⟩

end Sys2Proof.Machine
end

section
/-! The block commands as sequences of 42 primitive commands (44_block_cipher.md R116). Between its load and its store
a sequence only moves the grid, so a run is followed by the grid alone. The grids of a decryption are those of the
encryption it takes back, in the opposite order. -/

namespace Sys2Proof.Machine

/-- The state after a successful command that changed nothing but the grid. -/
def State.withGrid (s : State) (g : Grid) : State := { s with st := g, status := 0 }

theorem State.withGrid_fatal (s : State) (g : Grid) : (s.withGrid g).fatal = false := State.fatal_of_status rfl

/-! ### The primitives on the grid -/

section
variable {s : State} {g : Grid}

theorem exec_subBytes_withGrid : exec .subBytes (s.withGrid g) = .next (s.withGrid (subBytes g)) :=
  exec_subBytes (s.withGrid_fatal g)

theorem exec_invSubBytes_withGrid : exec .invSubBytes (s.withGrid (subBytes g)) = .next (s.withGrid g) :=
  exec_invSubBytes (s.withGrid_fatal (subBytes g)) rfl

theorem exec_shiftRows_withGrid : exec .shiftRows (s.withGrid g) = .next (s.withGrid (shiftRows g)) :=
  exec_shiftRows (s.withGrid_fatal g)

theorem exec_invShiftRows_withGrid : exec .invShiftRows (s.withGrid (shiftRows g)) = .next (s.withGrid g) :=
  (exec_invShiftRows (s.withGrid_fatal (shiftRows g))).trans
    (congrArg (fun h => Host.Outcome.next (s.withGrid h)) (invShiftRows_shiftRows g))

theorem exec_mixColumns_withGrid : exec .mixColumns (s.withGrid g) = .next (s.withGrid (mixColumns g)) :=
  exec_mixColumns (s.withGrid_fatal g)

theorem exec_invMixColumns_withGrid : exec .invMixColumns (s.withGrid (mixColumns g)) = .next (s.withGrid g) :=
  (exec_invMixColumns (s.withGrid_fatal (mixColumns g))).trans
    (congrArg (fun h => Host.Outcome.next (s.withGrid h)) (invMixColumns_mixColumns g))

/-- `ADD_ROUND_KEY` of each of the eleven round keys of a full schedule. -/
theorem exec_addRoundKey_withGrid (hk : s.rklen = 44) {r : BitVec 4} (n : Nat) (hr : r.toNat = n) (hn : n ≤ 10) :
    exec (.addRoundKey r) (s.withGrid g) = .next (s.withGrid (addRoundKey g (roundKey s.rk n))) := by
  subst hr
  have hrklen : (s.withGrid g).rklen.toNat = 44 := congrArg BitVec.toNat hk
  exact exec_addRoundKey (s.withGrid_fatal g) hn (by omega)

/-- `ADD_ROUND_KEY` a second time takes the first back. -/
theorem exec_addRoundKey_withGrid_back (hk : s.rklen = 44) {r : BitVec 4} (n : Nat) (hr : r.toNat = n)
    (hn : n ≤ 10) :
    exec (.addRoundKey r) (s.withGrid (addRoundKey g (roundKey s.rk n))) = .next (s.withGrid g) := by
  rw [exec_addRoundKey_withGrid hk n hr hn, addRoundKey_addRoundKey]

/-- The number of a round key fits in the operand of `ADD_ROUND_KEY` (30_encoding.md R46). -/
theorem toNat_ofNat_roundKey {n : Nat} (hn : n ≤ 10) : (BitVec.ofNat 4 n).toNat = n := by
  rw [BitVec.toNat_ofNat]
  omega

end

theorem exec_stLoad_eq_withGrid {s : State} (hf : s.fatal = false) (hn : s.slen = 16)
    (hsrc : s.sptr.toNat + 16 ≤ s.memSize) :
    exec .stLoad s = .next (s.withGrid (bytesToState s.sourceBlock)) := exec_stLoad hf hn hsrc

theorem exec_stStore_withGrid {s : State} {g : Grid} (hdst : s.dptr.toNat + 16 ≤ s.memSize) :
    exec .stStore (s.withGrid g) = .next { s.stored (stateToBytes g) with st := g } :=
  exec_stStore (s.withGrid_fatal g) hdst

/-- A sequence of pieces that go from one state of a sequence of states to the next. -/
theorem runCommands_flatMap_range {piece : Nat → List Instr} {stage : Nat → State} {n : Nat}
    (h : ∀ k, k < n → runCommands (piece k) (stage k) = .next (stage (k + 1))) :
    runCommands ((List.range n).flatMap piece) (stage 0) = .next (stage n) := by
  induction n with
  | zero => rfl
  | succ n ih =>
    rw [List.range_succ, List.flatMap_append, runCommands_append (ih fun k hk => h k (by omega)),
      List.flatMap_singleton]
    exact h n (by omega)

/-! ### The two sequences -/

section
variable {s : State} (hk : s.rklen = 44)
include hk

/-- Round `n + 1` of an encryption by its four commands. -/
theorem runCommands_encryptionRound (g : Grid) {n : Nat} (hn : n < 9) :
    runCommands [.subBytes, .shiftRows, .mixColumns, .addRoundKey (BitVec.ofNat 4 (n + 1))]
      (s.withGrid (encryptRounds s.rk n g)) = .next (s.withGrid (encryptRounds s.rk (n + 1) g)) := by
  have hr : n + 1 ≤ 10 := by omega
  rw [runCommands_cons exec_subBytes_withGrid, runCommands_cons exec_shiftRows_withGrid,
    runCommands_cons exec_mixColumns_withGrid,
    runCommands_cons (exec_addRoundKey_withGrid hk _ (toNat_ofNat_roundKey hr) hr), runCommands, encryptRounds]

/-- Round `k` of a decryption, counted from 0, takes back round `9 - k` of an encryption by its four commands. -/
theorem runCommands_decryptionRound (g : Grid) {k : Nat} (h : k < 9) :
    runCommands [.invShiftRows, .invSubBytes, .addRoundKey (BitVec.ofNat 4 (9 - k)), .invMixColumns]
      (s.withGrid (shiftRows (subBytes (encryptRounds s.rk (9 - k) g))))
      = .next (s.withGrid (shiftRows (subBytes (encryptRounds s.rk (9 - (k + 1)) g)))) := by
  have hround : 9 - k = 9 - (k + 1) + 1 := by omega
  have hr : 9 - (k + 1) + 1 ≤ 10 := by omega
  rw [hround, runCommands_cons exec_invShiftRows_withGrid, runCommands_cons exec_invSubBytes_withGrid, encryptRounds,
    runCommands_cons (exec_addRoundKey_withGrid_back hk _ (toNat_ofNat_roundKey hr) hr),
    runCommands_cons exec_invMixColumns_withGrid, runCommands]

variable (hf : s.fatal = false) (hn : s.slen = 16) (hsrc : s.sptr.toNat + 16 ≤ s.memSize)
  (hdst : s.dptr.toNat + 16 ≤ s.memSize)
include hf hn hsrc hdst

/-- The sequence of an encryption stores the grid of `encrypt_block` and leaves it in `ST`. -/
theorem runCommands_encryptionByPrimitives {g : Grid} (hg : g = encryptGrid s.rk (bytesToState s.sourceBlock)) :
    runCommands encryptionByPrimitives s = .next { s.stored (stateToBytes g) with st := g } := by
  have hload : runCommands [.stLoad, .addRoundKey 0] s
      = .next (s.withGrid (encryptRounds s.rk 0 (addRoundKey (bytesToState s.sourceBlock) (roundKey s.rk 0)))) := by
    rw [runCommands_cons (exec_stLoad_eq_withGrid hf hn hsrc),
      runCommands_cons (exec_addRoundKey_withGrid hk 0 rfl (Nat.zero_le 10)), runCommands, encryptRounds]
  have hrounds := runCommands_flatMap_range fun _ =>
    runCommands_encryptionRound hk (addRoundKey (bytesToState s.sourceBlock) (roundKey s.rk 0))
  rw [encryptionByPrimitives, List.append_assoc, runCommands_append hload, runCommands_append hrounds,
    runCommands_cons exec_subBytes_withGrid, runCommands_cons exec_shiftRows_withGrid,
    runCommands_cons (exec_addRoundKey_withGrid hk 10 rfl (Nat.le_refl 10)),
    runCommands_cons (exec_stStore_withGrid hdst), runCommands, hg, encryptGrid]

/-- The sequence of a decryption stores the grid whose encryption is the source and leaves it in `ST`. -/
theorem runCommands_decryptionByPrimitives {g : Grid} (hg : encryptGrid s.rk g = bytesToState s.sourceBlock) :
    runCommands decryptionByPrimitives s = .next { s.stored (stateToBytes g) with st := g } := by
  have hload : runCommands [.stLoad, .addRoundKey 10] s
      = .next (s.withGrid (shiftRows (subBytes (encryptRounds s.rk 9 (addRoundKey g (roundKey s.rk 0)))))) := by
    rw [runCommands_cons (exec_stLoad_eq_withGrid hf hn hsrc), ← hg, encryptGrid,
      runCommands_cons (exec_addRoundKey_withGrid_back hk 10 rfl (Nat.le_refl 10)), runCommands]
  have hrounds := runCommands_flatMap_range fun _ =>
    runCommands_decryptionRound hk (addRoundKey g (roundKey s.rk 0))
  rw [decryptionByPrimitives, List.append_assoc, runCommands_append hload, runCommands_append hrounds,
    runCommands_cons exec_invShiftRows_withGrid, runCommands_cons exec_invSubBytes_withGrid, encryptRounds,
    runCommands_cons (exec_addRoundKey_withGrid_back hk 0 rfl (Nat.zero_le 10)),
    runCommands_cons (exec_stStore_withGrid hdst), runCommands]

end

/-- A command that stores the block of a grid, and a sequence that in addition leaves the grid in `ST`, as R116
compares them. -/
theorem exec_runCommands_but_grid {i : Instr} {l : List Instr} {s : State} {g : Grid}
    (hi : exec i s = .next (s.stored (stateToBytes g)))
    (hl : runCommands l s = .next { s.stored (stateToBytes g) with st := g }) :
    ∃ t u, exec i s = .next t ∧ runCommands l s = .next u
      ∧ u = { t with st := bytesToState (t.memRead s.dptr.toNat 16) } ∧ t.dlen = 16 := by
  obtain ⟨-, hread, -⟩ := storedAt_stored s (stateToBytes g)
  rw [length_stateToBytes] at hread
  exact ⟨_, _, hi, hl, by rw [hread, bytesToState_stateToBytes], congrArg (BitVec.ofNat 32) (length_stateToBytes g)⟩

/-- Settles O49: command and sequence store the block of one grid, which is the encryption of the source's grid for
`BLK_ENC` and has the source's grid as its encryption for `BLK_DEC`. -/
theorem blockCommandsEqualPrimitives : Obligations.BlockCommandsEqualPrimitives := by
  intro s hf hn hk hsrc hdst
  constructor
  · exact exec_runCommands_but_grid ((storesBlock_blkEnc s).exec_eq hf hn hk hsrc hdst)
      (runCommands_encryptionByPrimitives hk hf hn hsrc hdst rfl)
  · obtain ⟨out, hout, hdecrypt, hencrypt⟩ := exists_decryptBlock_eq_ok (isBlock_sourceBlock s) s.rk
    have hblock : stateToBytes (bytesToState out) = out := stateToBytes_bytesToState hout
    have hg : encryptGrid s.rk (bytesToState out) = bytesToState s.sourceBlock := by
      rw [← hencrypt, encryptBlock_eq_encryptGrid, bytesToState_stateToBytes]
    refine exec_runCommands_but_grid ?_ (runCommands_decryptionByPrimitives hk hf hn hsrc hdst hg)
    rw [hblock]
    exact (storesBlock_blkDec hout hdecrypt).exec_eq hf hn hk hsrc hdst

end Sys2Proof.Machine
end

section
/-! `ST` and the block and chaining commands (44_block_cipher.md R115). The bodies of one command in two states that
differ in the grid alone are followed side by side: no test and no result looks at the grid. -/

namespace Sys2Proof.Machine

/-- Writes `a` that leave `ST` as it is in `s`, and the same writes `b` from `s` with the grid `g`. -/
def GridKept (s : State) (g : Grid) (a b : State) : Prop := a.st = s.st ∧ b = { a with st := g }

theorem agree_storeResult_gridKept (s : State) (g : Grid) (out : List Byte) :
    Agree (GridKept s g) (s.storeResult out) (State.storeResult { s with st := g } out) :=
  .ite rfl (.ok ⟨rfl, rfl⟩) (.error _)

/-- A result that may be an error, stored in two states that differ in the grid alone. -/
theorem agree_storeResult_of_result (s : State) (g : Grid) (result : Except CommandError (List Byte)) :
    Agree (GridKept s g)
      (match result with
        | .error e => .error e
        | .ok out => s.storeResult out)
      (match result with
        | .error e => .error e
        | .ok out => State.storeResult { s with st := g } out) := by
  cases result with
  | error e => exact .error e
  | ok out => exact agree_storeResult_gridKept s g out

/-- The bodies of a block or chaining command make the same tests, with the same results, whatever the grid. -/
theorem exec_bodies_agree_gridKept {i : Instr}
    (hi : i = .blkEnc ∨ i = .blkDec ∨ (∃ np, i = .cbcEnc np) ∨ (∃ np, i = .cbcDec np)) (s : State) (g : Grid) :
    ∃ body, (∀ t, exec i t = runCommand body t) ∧ Agree (GridKept s g) (body s) (body { s with st := g }) := by
  obtain rfl | rfl | ⟨np, rfl⟩ | ⟨np, rfl⟩ := hi
  · exact ⟨_, fun _ => rfl, .ite rfl (.error _) (.ite rfl (.error _) (agree_storeResult_gridKept s g _))⟩
  · exact ⟨_, fun _ => rfl, .ite rfl (.error _) (.ite rfl (.error _) (agree_storeResult_of_result s g _))⟩
  · exact ⟨_, fun _ => rfl, .ite rfl (.error _) (.ite rfl (.error _) (.ite rfl (.error _)
      (agree_storeResult_of_result s g _)))⟩
  · exact ⟨_, fun _ => rfl, .ite rfl (.error _) (.ite rfl (.error _) (.ite rfl (.error _)
      (agree_storeResult_of_result s g _)))⟩

/-- Settles O50: the two bodies agree, so both runs end in one error, which leaves `ST` alone, or in the same writes
beside the grid. -/
theorem blockCommandsKeepGrid : Obligations.BlockCommandsKeepGrid := by
  intro i s t g hi ht
  obtain ⟨body, hexec, hagree⟩ := exec_bodies_agree_gridKept hi s g
  obtain rfl : s.afterCommand body = t := Host.Outcome.next.inj ((hexec s).symm.trans ht)
  rw [hexec, runCommand]
  have hf : s.fatal = State.fatal { s with st := g } := rfl
  obtain ⟨e, hs, hu⟩ | ⟨a, b, ⟨hst, rfl⟩, hs, hu⟩ := hagree.afterCommand hf
  · rw [hs, hu]
    exact ⟨rfl, rfl⟩
  · rw [hs, hu]
    exact ⟨hst, rfl⟩

end Sys2Proof.Machine
end

section
/-! Padding (45_padding_cbc.md R120, R121, R130). `PadsTo` says which sequence is a padding of which; `pkcs7_pad` makes
it and `pkcs7_unpad` accepts exactly it, so the round trips need no look into either function. -/

namespace Sys2Proof.Machine

/-- `p` is `d` followed by `n` Bytes `n`, for an `n` of 1 to `bs` that fills the last block (R120). -/
def PadsTo (bs : Nat) (d p : List Byte) : Prop :=
  ∃ n, 1 ≤ n ∧ n ≤ bs ∧ (d.length + n) % bs = 0 ∧ p = d ++ List.replicate n (BitVec.ofNat 8 n)

/-- The number of Bytes that fills the last block is the only one of 1 to `bs` that does. -/
theorem sub_mod_eq_of_fills {m n bs : Nat} (hn : 1 ≤ n) (hbs : n ≤ bs) (hfill : (m + n) % bs = 0) :
    bs - m % bs = n := by
  have hr : m % bs < bs := Nat.mod_lt m (by omega)
  rw [← Nat.mod_add_mod] at hfill
  by_cases hlt : m % bs + n < bs
  · rw [Nat.mod_eq_of_lt hlt] at hfill
    omega
  · rw [Nat.mod_eq_sub_mod (by omega), Nat.mod_eq_of_lt (by omega)] at hfill
    omega

/-- `pkcs7_pad` makes the only padding there is. -/
theorem pkcs7Pad_eq_iff_padsTo {bs : Nat} (hbs : 1 ≤ bs) {d p : List Byte} : pkcs7Pad d bs = p ↔ PadsTo bs d p := by
  constructor
  · rintro rfl
    have hr : d.length % bs < bs := Nat.mod_lt _ hbs
    refine ⟨bs - d.length % bs, by omega, by omega, ?_, rfl⟩
    rw [← Nat.mod_add_mod, Nat.add_sub_cancel' hr.le, Nat.mod_self]
  · rintro ⟨n, hn, hle, hfill, rfl⟩
    rw [pkcs7Pad, sub_mod_eq_of_fills hn hle hfill]

/-- `pkcs7_unpad` takes the trailer off a padding. -/
theorem PadsTo.pkcs7Unpad_eq {bs : Nat} (hbs : bs ≤ 255) {d p : List Byte} (h : PadsTo bs d p) :
    pkcs7Unpad p bs = .ok d := by
  obtain ⟨n, hn, hle, hfill, rfl⟩ := h
  have hlen : (d ++ List.replicate n (BitVec.ofNat 8 n)).length = d.length + n := by simp
  have hlast : (d ++ List.replicate n (BitVec.ofNat 8 n)).getD (d.length + n - 1) 0 = BitVec.ofNat 8 n := by
    rw [List.getD_append_right _ _ _ _ (by omega), List.getD_replicate _ (by omega)]
  have hbyte : (BitVec.ofNat 8 n).toNat = n := by
    rw [BitVec.toNat_ofNat]
    omega
  have hrange : ¬ (n = 0 ∨ bs < n) := by omega
  have hpos : d.length + n ≠ 0 := by omega
  simp only [pkcs7Unpad, hlen, hlast, hbyte, if_neg hpos, hfill, if_neg hrange, Nat.add_sub_cancel,
    List.drop_left, List.take_left]
  simp

/-- What `pkcs7_unpad` accepts is a padding of its result. -/
theorem padsTo_of_pkcs7Unpad {bs : Nat} {d p : List Byte} (h : pkcs7Unpad p bs = .ok d) : PadsTo bs d p := by
  simp only [pkcs7Unpad] at h
  split_ifs at h with hpos hmod hrange htrailer
  cases h
  generalize p.getD (p.length - 1) 0 = last at *
  have hle : bs ≤ p.length := Nat.le_of_dvd (by omega) (Nat.dvd_of_mod_eq_zero (not_not.1 hmod))
  have hdrop : p.drop (p.length - last.toNat) = List.replicate last.toNat last := by
    refine List.eq_replicate_iff.2 ⟨by rw [List.length_drop]; omega, fun b hb => ?_⟩
    simpa using mt (fun hne => List.any_eq_true.2 ⟨b, hb, decide_eq_true hne⟩) htrailer
  refine ⟨last.toNat, by omega, by omega, ?_, ?_⟩
  · rw [List.length_take, Nat.min_eq_left (by omega), Nat.sub_add_cancel (by omega)]
    exact not_not.1 hmod
  · rw [BitVec.ofNat_toNat, BitVec.setWidth_eq, ← hdrop, List.take_append_drop]

theorem PadsTo.length_mod {bs : Nat} {d p : List Byte} (h : PadsTo bs d p) : p.length % bs = 0 := by
  obtain ⟨n, -, -, hfill, rfl⟩ := h
  rwa [List.length_append, List.length_replicate]

theorem PadsTo.length_lt {bs : Nat} {d p : List Byte} (h : PadsTo bs d p) : d.length < p.length := by
  obtain ⟨n, hn, -, -, rfl⟩ := h
  rw [List.length_append, List.length_replicate]
  omega

/-- Settles O53: padding and unpadding are both the relation `PadsTo`, read in its two directions. -/
theorem paddingRoundTrip : Obligations.PaddingRoundTrip := by
  intro d bs hbs hmax
  have hpads : PadsTo bs d (pkcs7Pad d bs) := (pkcs7Pad_eq_iff_padsTo hbs).1 rfl
  exact ⟨hpads.pkcs7Unpad_eq hmax, hpads.length_mod, hpads.length_lt,
    fun _ h => (pkcs7Pad_eq_iff_padsTo hbs).2 (padsTo_of_pkcs7Unpad h)⟩

end Sys2Proof.Machine
end

section
/-! The padding and chaining commands by the check order (60_exceptions.md R147): length tests, source ranges, then a
result that is stored. What follows from the order is said once, of any command that keeps to it. -/

namespace Sys2Proof.Machine

/-- In `s` the command makes its length tests, then its source range tests, and then stores `result`. -/
def ChecksThenStores (i : Instr) (s : State) (result : Except CommandError (List Byte)) : Prop :=
  ∃ body, exec i s = runCommand body s
    ∧ (lengthTest i s → body s = .error .lengthError)
    ∧ (¬ lengthTest i s → sourceRangeTest i s → body s = .error .accessFault)
    ∧ (¬ lengthTest i s → ¬ sourceRangeTest i s → body s = result.bind s.storeResult)

section
variable {i : Instr} {s : State} {result : Except CommandError (List Byte)} {out : List Byte}

theorem ChecksThenStores.wrongLength (h : ChecksThenStores i s result) (hf : s.fatal = false)
    (hlen : lengthTest i s) : EndsInError i s 2 := by
  obtain ⟨body, hexec, hbody, -, -⟩ := h
  exact hexec.trans (runCommand_error (e := .lengthError) hf (hbody hlen) (by decide))

theorem ChecksThenStores.sourceOutside (h : ChecksThenStores i s result) (hf : s.fatal = false)
    (hlen : ¬ lengthTest i s) (hsrc : sourceRangeTest i s) : EndsInError i s 4 := by
  obtain ⟨body, hexec, -, hbody, -⟩ := h
  exact hexec.trans (runCommand_error (e := .accessFault) hf (hbody hlen hsrc) (by decide))

theorem ChecksThenStores.paddingError (h : ChecksThenStores i s (.error .paddingError)) (hf : s.fatal = false)
    (hlen : ¬ lengthTest i s) (hsrc : ¬ sourceRangeTest i s) : EndsInError i s 3 := by
  obtain ⟨body, hexec, -, -, hbody⟩ := h
  exact hexec.trans (runCommand_error (e := .paddingError) hf (hbody hlen hsrc) (by decide))

theorem ChecksThenStores.resultOutside (h : ChecksThenStores i s (.ok out)) (hf : s.fatal = false)
    (hlen : ¬ lengthTest i s) (hsrc : ¬ sourceRangeTest i s) (hdst : s.memSize < s.dptr.toNat + out.length) :
    EndsInError i s 4 := by
  obtain ⟨body, hexec, -, -, hbody⟩ := h
  exact hexec.trans (runCommand_store_error hf (hbody hlen hsrc) hdst)

theorem ChecksThenStores.exec_eq (h : ChecksThenStores i s (.ok out)) (hf : s.fatal = false)
    (hlen : ¬ lengthTest i s) (hsrc : ¬ sourceRangeTest i s) (hdst : s.dptr.toNat + out.length ≤ s.memSize) :
    exec i s = .next (s.stored out) := by
  obtain ⟨body, hexec, -, -, hbody⟩ := h
  exact hexec.trans (runCommand_store hf (hbody hlen hsrc) hdst)

end

/-- A body whose tests come out as the spec's length tests and source range tests do. -/
theorem checksThenStores_of_tests {i : Instr} {s : State} {result : Except CommandError (List Byte)}
    {body : State → Except CommandError State} {wrongLength wrongLength' outside : Bool}
    (hexec : exec i s = runCommand body s)
    (hbody : body s = if wrongLength then .error .lengthError else if wrongLength' then .error .lengthError
      else if outside then .error .accessFault else result.bind s.storeResult)
    (hlen : lengthTest i s ↔ wrongLength = true ∨ wrongLength' = true)
    (hsrc : sourceRangeTest i s ↔ outside = true) : ChecksThenStores i s result := by
  refine ⟨body, hexec, fun hl => ?_, fun hl hr => ?_, fun hl hr => ?_⟩
  · obtain h | h := hlen.1 hl <;> simp [hbody, h]
  · rw [hlen, not_or] at hl
    simp [hbody, hl, hsrc.1 hr]
  · rw [hlen, not_or] at hl
    rw [hsrc] at hr
    simp [hbody, hl, hr]

theorem checksThenStores_pkcs7Pad (s : State) :
    ChecksThenStores .pkcs7Pad s (.ok (pkcs7Pad s.sourceBytes blockSize)) :=
  checksThenStores_of_tests (wrongLength := false) (wrongLength' := false)
    (outside := !s.inMem s.sptr s.slen.toNat) rfl rfl (by simp [lengthTest]) (by simp [sourceRangeTest, State.inMem])

theorem checksThenStores_pkcs7Unpad (s : State) :
    ChecksThenStores .pkcs7Unpad s (pkcs7Unpad s.sourceBytes blockSize) := by
  refine checksThenStores_of_tests (wrongLength := false) (wrongLength' := false)
    (outside := !s.inMem s.sptr s.slen.toNat) rfl ?_ (by simp [lengthTest]) (by simp [sourceRangeTest, State.inMem])
  cases pkcs7Unpad s.sourceBytes blockSize <;> rfl

@[simp] theorem State.length_sourceBytes (s : State) : s.sourceBytes.length = s.slen.toNat :=
  s.length_memRead _ _

theorem State.getElem_sourceBytes (s : State) (k : Nat) (h : k < s.sourceBytes.length) :
    s.sourceBytes[k] = s.byteAt (s.sptr.toNat + k) :=
  s.getElem_memRead _ _ k h

end Sys2Proof.Machine
end

section
/-! `PKCS7_PAD` and `PKCS7_UNPAD` (45_padding_cbc.md R126, R127). -/

namespace Sys2Proof.Machine

theorem pkcs7Pad_sourceBytes (s : State) {n : Nat} (hn : n = 16 - s.slen.toNat % 16) :
    pkcs7Pad s.sourceBytes blockSize
      = s.memRead s.sptr.toNat s.slen.toNat ++ List.replicate n (BitVec.ofNat 8 n) := by
  rw [pkcs7Pad, State.length_sourceBytes, hn]
  rfl

/-- Settles O51: the source followed by the trailer, stored by the check order. -/
theorem pkcs7PadResult : Obligations.Pkcs7PadResult := by
  refine fun s => ⟨⟨rfl, rfl⟩, exec_refusedWhenFatal _ s, fun hf n hn => ?_⟩
  have hruns := checksThenStores_pkcs7Pad s
  have hlength : (pkcs7Pad s.sourceBytes blockSize).length = s.slen.toNat + n := by
    simp [pkcs7Pad_sourceBytes s hn]
  constructor
  · intro hout
    by_cases hsrc : s.memSize < s.sptr.toNat + s.slen.toNat
    · exact hruns.sourceOutside hf id hsrc
    · refine hruns.resultOutside hf id hsrc ?_
      rw [hlength]
      exact hout.resolve_left hsrc
  · intro hsrc hdst
    rw [← pkcs7Pad_sourceBytes s hn]
    exact ⟨_, hruns.exec_eq hf id (Nat.not_lt.2 hsrc) (by rwa [hlength]), storedAt_stored s _⟩

/-- The source ends in `n` Bytes `n` when it is what stands before them followed by `n` Bytes `n`. -/
theorem sourceBytes_eq_append_iff (s : State) {n : Nat} (hn : n ≤ s.slen.toNat) :
    s.sourceBytes = s.memRead s.sptr.toNat (s.slen.toNat - n) ++ List.replicate n (BitVec.ofNat 8 n)
      ↔ ∀ k, s.slen.toNat - n ≤ k → k < s.slen.toNat → s.byteAt (s.sptr.toNat + k) = BitVec.ofNat 8 n := by
  constructor
  · intro h k hk hlt
    have hbyte := List.getElem_of_eq h (i := k) (by simpa using hlt)
    rwa [State.getElem_sourceBytes, List.getElem_append_right (by simpa using hk), List.getElem_replicate] at hbyte
  · intro h
    refine List.ext_getElem (by simp [hn]) (fun k hk _ => ?_)
    have hlt : k < s.slen.toNat := by simpa using hk
    rw [State.getElem_sourceBytes]
    by_cases hsplit : k < s.slen.toNat - n
    · rw [List.getElem_append_left (by simpa using hsplit), State.getElem_memRead]
    · rw [List.getElem_append_right (by simpa using hsplit), List.getElem_replicate, h k (by omega) hlt]

/-- `n` Bytes `n` end the source and fill its last block. -/
def State.EndsInPadding (s : State) (n : Nat) : Prop :=
  1 ≤ n ∧ n ≤ 16 ∧ n ≤ s.slen.toNat ∧ s.slen.toNat % 16 = 0
    ∧ ∀ k, s.slen.toNat - n ≤ k → k < s.slen.toNat → s.byteAt (s.sptr.toNat + k) = BitVec.ofNat 8 n

/-- A trailer in `MEM` is a padding of what stands before it. -/
theorem State.EndsInPadding.pkcs7Unpad_eq {s : State} {n : Nat} (h : s.EndsInPadding n) :
    pkcs7Unpad s.sourceBytes blockSize = .ok (s.memRead s.sptr.toNat (s.slen.toNat - n)) := by
  obtain ⟨hn, hle, hslen, hblocks, hbytes⟩ := h
  refine PadsTo.pkcs7Unpad_eq (by decide) ⟨n, hn, hle, ?_, (sourceBytes_eq_append_iff s hslen).2 hbytes⟩
  rwa [State.length_memRead, Nat.sub_add_cancel hslen]

/-- Where unpadding the source succeeds, a trailer stands in `MEM`. -/
theorem State.exists_endsInPadding {s : State} {d : List Byte} (h : pkcs7Unpad s.sourceBytes blockSize = .ok d) :
    ∃ n, s.EndsInPadding n := by
  obtain ⟨n, hn, hle, hfill, heq⟩ := padsTo_of_pkcs7Unpad h
  have hlength : s.slen.toNat = d.length + n := by simpa using congrArg List.length heq
  have hd : d = s.memRead s.sptr.toNat (s.slen.toNat - n) := by
    refine List.ext_getElem (by simp [hlength]) (fun k hk _ => ?_)
    have hbyte := List.getElem_of_eq heq (i := k) (by simp [hlength]; omega)
    rw [State.getElem_sourceBytes, List.getElem_append_left hk] at hbyte
    rw [← hbyte, State.getElem_memRead]
  refine ⟨n, hn, hle, by omega, hlength ▸ hfill, (sourceBytes_eq_append_iff s (by omega)).1 ?_⟩
  rw [← hd, heq]

/-- Settles O52: unpadding succeeds exactly on a source with a trailer, and its result is stored by the check order. -/
theorem pkcs7UnpadResult : Obligations.Pkcs7UnpadResult := by
  refine fun s => ⟨⟨rfl, rfl⟩, exec_refusedWhenFatal _ s, fun hf => ?_⟩
  have hruns := checksThenStores_pkcs7Unpad s
  refine ⟨hruns.sourceOutside hf id, fun hsrc => ⟨fun n hn hle hslen hblocks hbytes => ?_, fun hnone => ?_⟩⟩
  · have htrailer : s.EndsInPadding n := ⟨hn, hle, hslen, hblocks, hbytes⟩
    rw [htrailer.pkcs7Unpad_eq] at hruns
    refine ⟨fun hdst => hruns.resultOutside hf id (Nat.not_lt.2 hsrc) (by rwa [State.length_memRead]),
      fun hdst => ?_⟩
    exact ⟨_, hruns.exec_eq hf id (Nat.not_lt.2 hsrc) (by rwa [State.length_memRead]), storedAt_stored s _⟩
  · cases hunpad : pkcs7Unpad s.sourceBytes blockSize with
    | ok d => exact absurd (State.exists_endsInPadding hunpad) hnone
    | error e =>
      rw [hunpad, pkcs7Unpad_error hunpad] at hruns
      exact hruns.paddingError hf id (Nat.not_lt.2 hsrc)

end Sys2Proof.Machine
end

section
/-! XOR of blocks, blocks of a sequence, and the chain value (45_padding_cbc.md R122 to R124). -/

namespace Sys2Proof.Machine

/-! ### XOR of blocks (R122) -/

theorem xorBlock_assoc (x y z : List Byte) : xorBlock (xorBlock x y) z = xorBlock x (xorBlock y z) := by
  induction x generalizing y z with
  | nil => rfl
  | cons a x ih =>
    cases y with
    | nil => rfl
    | cons b y =>
      cases z with
      | nil => rfl
      | cons c z => exact congrArg₂ List.cons (BitVec.xor_assoc a b c) (ih y z)

theorem xorBlock_comm (x y : List Byte) : xorBlock x y = xorBlock y x :=
  List.zipWith_comm_of_comm BitVec.xor_comm

theorem xorBlock_self (x : List Byte) : xorBlock x x = List.replicate x.length 0 := by
  simp [xorBlock]

/-- A block XORed away and back. -/
theorem xorBlock_cancel {x y : List Byte} (h : x.length = y.length) : xorBlock (xorBlock x y) y = x := by
  rw [xorBlock_assoc, xorBlock_self, ← h]
  refine List.ext_getElem (by simp [xorBlock]) (fun k _ _ => by simp [xorBlock])

theorem xorBlock_right_injective {x x' y : List Byte} (hx : x.length = y.length) (hx' : x'.length = y.length)
    (h : xorBlock x y = xorBlock x' y) : x = x' := by
  rw [← xorBlock_cancel hx, h, xorBlock_cancel hx']

/-- A change that leaves the block as it is is no change. -/
theorem eq_replicate_zero_of_xorBlock_eq {b d : List Byte} (hd : d.length = b.length) (h : xorBlock b d = b) :
    d = List.replicate b.length 0 := by
  rw [← xorBlock_self, ← xorBlock_cancel hd, xorBlock_comm d b, h]

/-! ### Blocks of a sequence (R123) -/

theorem blockOf_zero (p : List Byte) : blockOf p 0 = p.take 16 := rfl

/-- Blocks are counted from the front. -/
theorem blockOf_drop (p : List Byte) (j : Nat) : blockOf (p.drop 16) j = blockOf p (j + 1) := by
  rw [blockOf, blockOf, List.drop_drop]
  congr 2
  omega

theorem blockOf_append_zero {c : List Byte} (hc : IsBlock c) (rest : List Byte) : blockOf (c ++ rest) 0 = c :=
  List.take_left' hc

theorem blockOf_append_succ {c : List Byte} (hc : IsBlock c) (rest : List Byte) (j : Nat) :
    blockOf (c ++ rest) (j + 1) = blockOf rest j := by
  rw [← blockOf_drop, List.drop_left' hc]

/-- A sequence of whole blocks has a block wherever it has a Byte. -/
theorem isBlock_blockOf {p : List Byte} (hp : p.length % 16 = 0) {j : Nat} (hj : 16 * j < p.length) :
    IsBlock (blockOf p j) := by
  rw [IsBlock, blockOf, List.length_take, List.length_drop]
  omega

/-- Past the end a sequence has empty blocks. -/
theorem blockOf_eq_nil {p : List Byte} {j : Nat} (hj : p.length ≤ 16 * j) : blockOf p j = [] := by
  rw [blockOf, List.drop_of_length_le hj, List.take_nil]

/-! ### The chain value (R123, R124) -/

theorem chainOf_zero (iv ct : List Byte) : chainOf iv ct 0 = iv := rfl

theorem chainOf_succ (iv ct : List Byte) (j : Nat) : chainOf iv ct (j + 1) = blockOf ct j := rfl

theorem isBlock_chainOf {iv ct : List Byte} (hiv : IsBlock iv) (hct : ct.length % 16 = 0) {j : Nat}
    (hj : 16 * j < ct.length) : IsBlock (chainOf iv ct j) := by
  cases j with
  | zero => exact hiv
  | succ j => exact isBlock_blockOf hct (by omega)

/-- After its first block a chain goes on as one that starts from that block. -/
theorem chainOf_append_succ {c : List Byte} (hc : IsBlock c) (iv rest : List Byte) (j : Nat) :
    chainOf iv (c ++ rest) (j + 1) = chainOf c rest j := by
  rw [chainOf_succ]
  cases j with
  | zero => exact blockOf_append_zero hc rest
  | succ j => exact blockOf_append_succ hc rest j

/-- Two ciphertexts with the same block before block `j` have the same chain value there. -/
theorem chainOf_congr {iv ct ct' : List Byte} {j : Nat} (h : j ≠ 0 → blockOf ct' (j - 1) = blockOf ct (j - 1)) :
    chainOf iv ct' j = chainOf iv ct j := by
  cases j with
  | zero => rfl
  | succ j => exact h (Nat.succ_ne_zero j)

end Sys2Proof.Machine
end

section
/-! What `cbc_encrypt` and `cbc_decrypt` make, block by block (45_padding_cbc.md R123, R124). -/

namespace Sys2Proof.Machine

/-! ### Encryption -/

/-- Each block of the chain is the encryption of its plaintext block XOR the chain value. -/
theorem blockOf_encryptChain (w : Schedule) {n j : Nat} (chain p : List Byte) (hj : j < n) :
    blockOf (encryptChain w n chain p) j
      = encryptBlock (xorBlock (blockOf p j) (chainOf chain (encryptChain w n chain p) j)) w := by
  induction n generalizing chain p j with
  | zero => omega
  | succ n ih =>
    have hc : IsBlock (encryptBlock (xorBlock (p.take 16) chain) w) := length_encryptBlock _ w
    rw [encryptChain]
    cases j with
    | zero => rw [blockOf_append_zero hc, chainOf_zero, blockOf_zero]
    | succ j => rw [blockOf_append_succ hc, chainOf_append_succ hc, ← blockOf_drop, ih _ _ (by omega)]

/-- The plaintext as `cbc_encrypt` chains it: padded unless `np`. -/
def chainedPlaintext (pt : List Byte) (np : Bool) : List Byte := if np then pt else pkcs7Pad pt blockSize

/-- With the lengths right `cbc_encrypt` is its chain. -/
theorem cbcEncrypt_eq {key iv pt : List Byte} {np : Bool} (hkey : key.length = 16) (hiv : iv.length = 16)
    (hnp : np = true → positiveMultipleOf16 pt.length = true) :
    cbcEncrypt key iv pt np
      = .ok (encryptChain (expandKey key) ((chainedPlaintext pt np).length / 16) iv (chainedPlaintext pt np)) := by
  have htest : (np && !positiveMultipleOf16 pt.length) = false := by
    cases np with
    | false => rfl
    | true => rw [hnp rfl]; rfl
  simp only [cbcEncrypt, hkey, hiv, htest]
  rfl

theorem positiveMultipleOf16_iff (n : Nat) : positiveMultipleOf16 n = true ↔ n ≠ 0 ∧ n % 16 = 0 := by
  simp [positiveMultipleOf16]

theorem length_chainedPlaintext_mod {pt : List Byte} {np : Bool}
    (hnp : np = true → positiveMultipleOf16 pt.length = true) : (chainedPlaintext pt np).length % 16 = 0 := by
  cases np with
  | false => exact ((pkcs7Pad_eq_iff_padsTo (by decide)).1 rfl).length_mod
  | true => exact ((positiveMultipleOf16_iff _).1 (hnp rfl)).2

/-! ### Decryption -/

/-- `p` is the chained decryption of `ct`: block `j` is the decryption of ciphertext block `j` XOR the chain value. -/
structure ChainDecrypts (w : Schedule) (iv ct p : List Byte) : Prop where
  length_eq : p.length = ct.length
  block : ∀ j, 16 * j < ct.length →
    ∃ d, IsBlock d ∧ decryptBlock (blockOf ct j) w = .ok d ∧ blockOf p j = xorBlock d (chainOf iv ct j)

/-- The chain over all blocks of a ciphertext succeeds with its chained decryption. -/
theorem exists_decryptChain_eq_ok (w : Schedule) {n : Nat} {chain ct : List Byte} (hchain : IsBlock chain)
    (hct : ct.length = 16 * n) : ∃ p, decryptChain w n chain ct = .ok p ∧ ChainDecrypts w chain ct p := by
  induction n generalizing chain ct with
  | zero => exact ⟨[], rfl, hct.symm, fun j hj => by omega⟩
  | succ n ih =>
    obtain ⟨c, rest, rfl, hc⟩ : ∃ c rest, ct = c ++ rest ∧ IsBlock c :=
      ⟨ct.take 16, ct.drop 16, (List.take_append_drop 16 ct).symm, by rw [IsBlock, List.length_take]; omega⟩
    have hrest : rest.length = 16 * n := by
      rw [List.length_append, hc] at hct
      omega
    obtain ⟨d, hd, hdecrypt, -⟩ := exists_decryptBlock_eq_ok hc w
    obtain ⟨p, hp, hlen, hblocks⟩ := ih hc hrest
    have hfirst : IsBlock (xorBlock d chain) := by rw [IsBlock, length_xorBlock, hd, hchain]; rfl
    refine ⟨xorBlock d chain ++ p, ?_, ?_, fun j hj => ?_⟩
    · simp only [decryptChain, List.take_left' hc, List.drop_left' hc, hdecrypt, hp]
    · rw [List.length_append, List.length_append, hlen, hfirst, hc]
    · cases j with
      | zero => exact ⟨d, hd, by rwa [blockOf_append_zero hc], blockOf_append_zero hfirst p⟩
      | succ j =>
        rw [blockOf_append_succ hc, blockOf_append_succ hfirst, chainOf_append_succ hc]
        exact hblocks j (by rw [List.length_append, hc] at hj; omega)

/-- With the lengths right `cbc_decrypt` makes the chained decryption, and unpads it unless `np`. -/
theorem exists_cbcDecrypt_eq {key iv ct : List Byte} (np : Bool) (hkey : key.length = 16) (hiv : iv.length = 16)
    (hct : positiveMultipleOf16 ct.length = true) :
    ∃ p, ChainDecrypts (expandKey key) iv ct p
      ∧ cbcDecrypt key iv ct np = if np then .ok p else pkcs7Unpad p blockSize := by
  have hblocks : ct.length = 16 * (ct.length / 16) := by
    have := ((positiveMultipleOf16_iff _).1 hct).2
    omega
  obtain ⟨p, hp, hdecrypts⟩ := exists_decryptChain_eq_ok (expandKey key) hiv hblocks
  refine ⟨p, hdecrypts, ?_⟩
  simp only [cbcDecrypt, hkey, hiv, hct, hp]
  rfl

end Sys2Proof.Machine
end

section
/-! `CBC_ENC` and `CBC_DEC` (45_padding_cbc.md R128, R129): the tests of both in the words of R141 and R145, then the
chain that each stores. -/

namespace Sys2Proof.Machine

theorem not_keyIvLengthsOk_iff (s : State) : (!s.keyIvLengthsOk) = true ↔ s.klen ≠ 16 ∨ s.ilen ≠ 16 := by
  rw [Bool.not_eq_true', ← Bool.not_eq_true, State.keyIvLengthsOk, Bool.and_eq_true, beq_iff_eq, beq_iff_eq,
    toNat_eq_sixteen_iff, toNat_eq_sixteen_iff, not_and_or]

theorem not_positiveMultipleOf16_iff (w : Word) :
    (!positiveMultipleOf16 w.toNat) = true ↔ w = 0 ∨ w.toNat % 16 ≠ 0 := by
  have hzero : w.toNat = 0 ↔ w = 0 := (BitVec.toNat_eq (y := 0)).symm
  rw [Bool.not_eq_true', ← Bool.not_eq_true, positiveMultipleOf16_iff, not_and_or, ne_eq, not_not, hzero]

theorem lengthTest_cbcEnc_iff (s : State) (np : Bool) : lengthTest (.cbcEnc np) s
    ↔ (!s.keyIvLengthsOk) = true ∨ (np && !positiveMultipleOf16 s.slen.toNat) = true := by
  rw [Bool.and_eq_true, not_keyIvLengthsOk_iff, not_positiveMultipleOf16_iff, or_assoc, lengthTest]

theorem lengthTest_cbcDec_iff (s : State) (np : Bool) : lengthTest (.cbcDec np) s
    ↔ (!s.keyIvLengthsOk) = true ∨ (!positiveMultipleOf16 s.slen.toNat) = true := by
  rw [not_keyIvLengthsOk_iff, not_positiveMultipleOf16_iff, or_assoc, lengthTest]

/-- The source ranges of `CBC_ENC`, which are those of `CBC_DEC` as well. -/
theorem sourceRangeTest_cbcEnc_iff (s : State) (np : Bool) :
    sourceRangeTest (.cbcEnc np) s ↔ (!s.cbcSourcesInMem) = true := by
  simp only [sourceRangeTest, State.cbcSourcesInMem, State.inMem, Bool.not_and, Bool.or_eq_true, Bool.not_eq_true',
    decide_eq_false_iff_not, Nat.not_le, or_assoc]

theorem checksThenStores_cbcEnc (s : State) (np : Bool) :
    ChecksThenStores (.cbcEnc np) s (cbcEncrypt s.keyBytes s.ivBytes s.sourceBytes np) := by
  refine checksThenStores_of_tests rfl ?_ (lengthTest_cbcEnc_iff s np) (sourceRangeTest_cbcEnc_iff s np)
  cases cbcEncrypt s.keyBytes s.ivBytes s.sourceBytes np <;> rfl

theorem checksThenStores_cbcDec (s : State) (np : Bool) :
    ChecksThenStores (.cbcDec np) s (cbcDecrypt s.keyBytes s.ivBytes s.sourceBytes np) := by
  refine checksThenStores_of_tests rfl ?_ (lengthTest_cbcDec_iff s np) (sourceRangeTest_cbcEnc_iff s np)
  cases cbcDecrypt s.keyBytes s.ivBytes s.sourceBytes np <;> rfl

theorem length_keyBytes (s : State) : s.keyBytes.length = 16 := s.length_memRead _ _

theorem length_ivBytes (s : State) : s.ivBytes.length = 16 := s.length_memRead _ _

/-! ### `CBC_ENC` -/

/-- The plaintext of `CBC_ENC` is the source, with `np` as it is and without `np` followed by its padding. -/
theorem chainedPlaintext_sourceBytes (s : State) (np : Bool) {n : List Byte}
    (hn : n = List.replicate (16 - s.slen.toNat % 16) (BitVec.ofNat 8 (16 - s.slen.toNat % 16))) :
    chainedPlaintext s.sourceBytes np
      = if np then s.memRead s.sptr.toNat s.slen.toNat else s.memRead s.sptr.toNat s.slen.toNat ++ n := by
  rw [chainedPlaintext, pkcs7Pad_sourceBytes s rfl, hn]
  rfl

/-- Settles O54: past the length tests the result is the chain over the plaintext's blocks, stored by the check
order. -/
theorem cbcEncResult : Obligations.CbcEncResult := by
  refine fun s np => ⟨by cases np <;> exact ⟨rfl, rfl⟩, exec_refusedWhenFatal _ s, fun hf => ?_⟩
  have hruns := checksThenStores_cbcEnc s np
  refine ⟨hruns.wrongLength hf, fun hlen => ⟨hruns.sourceOutside hf hlen, fun hsrc p n hn hp => ?_⟩⟩
  have hnp : np = true → positiveMultipleOf16 s.sourceBytes.length = true := by
    rw [lengthTest_cbcEnc_iff] at hlen
    rintro rfl
    simpa using (not_or.1 hlen).2
  rw [← chainedPlaintext_sourceBytes s np hn] at hp
  rw [cbcEncrypt_eq (length_keyBytes s) (length_ivBytes s) hnp, ← hp] at hruns
  have hblocks : p.length % 16 = 0 := hp ▸ length_chainedPlaintext_mod hnp
  have hout : (encryptChain (expandKey s.keyBytes) (p.length / 16) s.ivBytes p).length = p.length := by
    rw [length_encryptChain]
    omega
  refine ⟨fun hdst => hruns.resultOutside hf hlen hsrc (by rwa [hout]), fun hdst => ?_⟩
  exact ⟨_, _, hruns.exec_eq hf hlen hsrc (by rwa [hout]), storedAt_stored s _, hout,
    fun j hj => blockOf_encryptChain _ _ _ (by omega)⟩

/-! ### `CBC_DEC` -/

/-- Block `j` of the source stands at `SPTR + 16j`. -/
theorem blockOf_sourceBytes (s : State) {j : Nat} (hj : 16 * j + 16 ≤ s.slen.toNat) :
    blockOf s.sourceBytes j = s.memRead (s.sptr.toNat + 16 * j) 16 := by
  refine List.ext_getElem (by simp [blockOf]; omega) (fun k _ _ => ?_)
  simp [blockOf, State.getElem_sourceBytes, State.getElem_memRead, Nat.add_assoc]

/-- Settles O55: past the length tests the result is the chained decryption, unpadded unless `np`, stored by the check
order; unpadding fails with `PaddingError` alone. -/
theorem cbcDecResult : Obligations.CbcDecResult := by
  refine fun s np => ⟨by cases np <;> exact ⟨rfl, rfl⟩, exec_refusedWhenFatal _ s, fun hf => ?_⟩
  have hruns := checksThenStores_cbcDec s np
  refine ⟨hruns.wrongLength hf, fun hlen => ⟨hruns.sourceOutside hf hlen, fun hsrc => ?_⟩⟩
  have hct : positiveMultipleOf16 s.sourceBytes.length = true := by
    rw [lengthTest_cbcDec_iff] at hlen
    simpa using (not_or.1 hlen).2
  obtain ⟨p, ⟨hlength, hblocks⟩, hresult⟩ :=
    exists_cbcDecrypt_eq np (length_keyBytes s) (length_ivBytes s) hct
  rw [hresult] at hruns
  rw [State.length_sourceBytes] at hct hlength hblocks
  refine ⟨p, hlength, fun j hj => ?_, fun e hnp he => ?_, fun out hout => ?_⟩
  · obtain ⟨d, -, hdecrypt, hblock⟩ := hblocks j hj
    have hwhole : 16 * j + 16 ≤ s.slen.toNat := by
      have := ((positiveMultipleOf16_iff _).1 hct).2
      omega
    exact ⟨d, blockOf_sourceBytes s hwhole ▸ hdecrypt, hblock⟩
  · have herror : pkcs7Unpad p blockSize = .error .paddingError := pkcs7Unpad_error he ▸ he
    subst hnp
    exact ChecksThenStores.paddingError (herror ▸ hruns) hf hlen hsrc
  · have hok : (if np then .ok p else pkcs7Unpad p blockSize) = .ok out := by
      cases np with
      | false => exact hout
      | true => exact congrArg Except.ok hout.symm
    rw [hok] at hruns
    exact ⟨hruns.resultOutside hf hlen hsrc,
      fun hdst => ⟨_, hruns.exec_eq hf hlen hsrc hdst, storedAt_stored s out⟩⟩

end Sys2Proof.Machine
end

section
/-! A changed ciphertext block (45_padding_cbc.md R125). Block `j` of a chained decryption depends on ciphertext block
`j`, through the block cipher, and on the chain value, through XOR; so a change of block `i` reaches block `i` through
the one and block `i + 1` through the other. -/

namespace Sys2Proof.Machine

/-- `decrypt_block` takes different blocks to different blocks. -/
theorem decryptBlock_injective {b b' d : List Byte} {w : Schedule} (hb : IsBlock b) (hb' : IsBlock b')
    (h : decryptBlock b w = .ok d) (h' : decryptBlock b' w = .ok d) : b = b' := by
  have hencrypt {c : List Byte} (hc : IsBlock c) (hd : decryptBlock c w = .ok d) : encryptBlock d w = c := by
    obtain ⟨e, -, he, heq⟩ := exists_decryptBlock_eq_ok hc w
    rw [hd] at he
    cases he
    exact heq
  rw [← hencrypt hb h, hencrypt hb' h']

section
variable {w : Schedule} {iv ct ct' p p' : List Byte} (hp : ChainDecrypts w iv ct p) (hp' : ChainDecrypts w iv ct' p')
  (hlen : ct'.length = ct.length)
include hp hp' hlen

/-- Where the ciphertext block is the same in both, so is its decryption, and the plaintext blocks differ as the chain
values do. -/
theorem ChainDecrypts.blockOf_of_same_block {j : Nat} (hj : 16 * j < ct.length)
    (hblock : blockOf ct' j = blockOf ct j) :
    ∃ d, blockOf p j = xorBlock d (chainOf iv ct j) ∧ blockOf p' j = xorBlock d (chainOf iv ct' j) := by
  obtain ⟨d, -, hd, hpj⟩ := hp.block j hj
  obtain ⟨d', -, hd', hpj'⟩ := hp'.block j (hlen ▸ hj)
  rw [hblock, hd] at hd'
  cases hd'
  exact ⟨d, hpj, hpj'⟩

/-- Where the ciphertext block and the one before it are the same in both, so is the plaintext block. -/
theorem ChainDecrypts.blockOf_eq {j : Nat} (hblock : blockOf ct' j = blockOf ct j)
    (hprev : j ≠ 0 → blockOf ct' (j - 1) = blockOf ct (j - 1)) : blockOf p' j = blockOf p j := by
  by_cases hj : 16 * j < ct.length
  · obtain ⟨d, hpj, hpj'⟩ := hp.blockOf_of_same_block hp' hlen hj hblock
    rw [hpj, hpj', chainOf_congr hprev]
  · rw [blockOf_eq_nil (p := p) (by rw [hp.length_eq]; omega), blockOf_eq_nil (p := p') (by rw [hp'.length_eq]; omega)]

/-- The block after a changed one changes by the same XOR. -/
theorem ChainDecrypts.blockOf_succ_of_changed {i : Nat} {d : List Byte} (hi : 16 * (i + 1) < ct.length)
    (hblock : blockOf ct' (i + 1) = blockOf ct (i + 1)) (hchange : blockOf ct' i = xorBlock (blockOf ct i) d) :
    blockOf p' (i + 1) = xorBlock (blockOf p (i + 1)) d := by
  obtain ⟨e, hpj, hpj'⟩ := hp.blockOf_of_same_block hp' hlen hi hblock
  rw [hpj, hpj', chainOf_succ, chainOf_succ, hchange, xorBlock_assoc]

/-- The block whose ciphertext block changed changes when the chain value before it did not. -/
theorem ChainDecrypts.blockOf_ne_of_changed {i : Nat} (hiv : IsBlock iv) (hmod : ct.length % 16 = 0)
    (hi : 16 * i < ct.length) (hchain : chainOf iv ct' i = chainOf iv ct i) (hne : blockOf ct' i ≠ blockOf ct i) :
    blockOf p' i ≠ blockOf p i := by
  obtain ⟨e, he, hdecrypt, hpi⟩ := hp.block i hi
  obtain ⟨e', he', hdecrypt', hpi'⟩ := hp'.block i (hlen ▸ hi)
  have hc : IsBlock (chainOf iv ct i) := isBlock_chainOf hiv hmod hi
  intro heq
  rw [hpi, hpi', hchain] at heq
  obtain rfl : e' = e := xorBlock_right_injective (he'.trans hc.symm) (he.trans hc.symm) heq
  exact hne (decryptBlock_injective (isBlock_blockOf (hlen ▸ hmod) (hlen ▸ hi)) (isBlock_blockOf hmod hi) hdecrypt'
    hdecrypt)

end

/-- Settles O57: the two chained decryptions compared block by block. -/
theorem changedCiphertextBlock : Obligations.ChangedCiphertextBlock := by
  intro key iv ct ct' d i hkey hiv hmod hi hd hlen hchange hsame
  have hct : positiveMultipleOf16 ct.length = true := (positiveMultipleOf16_iff _).2 ⟨by omega, hmod⟩
  obtain ⟨p, hp, hresult⟩ := exists_cbcDecrypt_eq true hkey hiv hct
  obtain ⟨p', hp', hresult'⟩ := exists_cbcDecrypt_eq true hkey hiv (hlen ▸ hct)
  have hchain : chainOf iv ct' i = chainOf iv ct i := chainOf_congr fun _ => hsame _ (by omega)
  refine ⟨p, p', hresult, hresult', hp'.length_eq.trans (hlen.trans hp.length_eq.symm), fun j hj hj' => ?_,
    fun hi' => ?_, ?_, fun hne => ?_⟩
  · exact hp.blockOf_eq hp' hlen (hsame j hj) fun _ => hsame _ (by omega)
  · exact hp.blockOf_succ_of_changed hp' hlen hi' (hsame _ (by omega)) hchange
  · obtain ⟨e, -, he, hpi⟩ := hp'.block i (hlen ▸ hi)
    exact ⟨e, hchange ▸ he, hchain ▸ hpi⟩
  · have hblock : (blockOf ct i).length = 16 := isBlock_blockOf hmod hi
    refine hp.blockOf_ne_of_changed hp' hlen hiv hmod hi hchain fun heq => hne ?_
    rw [hchange] at heq
    rw [eq_replicate_zero_of_xorBlock_eq (hd.trans hblock.symm) heq, hblock]

end Sys2Proof.Machine
end

section
/-! What an error changes (60_exceptions.md R148). A command that does not succeed takes an error, and taking one is
`State.raise`. -/

namespace Sys2Proof.Machine

@[simp] theorem fatalBit_statusWord (c : BitVec 4) (f : Bool) : fatalBit (statusWord c f) = f := by
  cases f <;> revert c <;> decide

@[simp] theorem State.raise_fatal (s : State) (e : CommandError) : (s.raise e).fatal = fatalAfter e s.fatal :=
  fatalBit_statusWord _ _

/-- 5 is the code of `InvariantFault` alone (R140). -/
theorem CommandError.code_beq_five (e : CommandError) : (e.code == 5) = (e == .invariantFault) := by
  cases e <;> decide

/-- A command ends with `ERR` not zero only by taking an error. -/
theorem exists_eq_raise_of_err_ne_zero {i : Instr} {s t : State} (h : exec i s = .next t) (herr : t.err ≠ 0) :
    ∃ e, t = s.raise e := by
  obtain ⟨-, ht⟩ | ⟨-, ⟨e, -, ht⟩ | ⟨u, -, rfl⟩⟩ := exec_cases h
  · exact ⟨_, ht⟩
  · exact ⟨e, ht⟩
  · exact absurd u.succeed_err herr

/-- Settles O16: the error is taken by `State.raise`, which writes `STATUS` alone and sets `FATAL` for the error with
code 5. -/
theorem errorsChangeStatusOnly : Obligations.ErrorsChangeStatusOnly := by
  intro i s t ht herr
  obtain ⟨e, rfl⟩ := exists_eq_raise_of_err_ne_zero ht herr
  refine ⟨rfl, ?_⟩
  rw [State.raise_fatal, State.raise_err, e.code_beq_five, fatalAfter]

end Sys2Proof.Machine
end

section
/-! How a command can end while `FATAL` is 0 (60_exceptions.md R141, R143, R147). A command that fails a length test
ends in `LengthError`; one that passes them has no way to that error or to `InvariantFault`, since every inverse S-box
search finds a match. -/

namespace Sys2Proof.Machine

/-! ### The block commands and `ST_STORE` by the check order (R147) -/

theorem State.blockLengthsOk_eq_false_iff (s : State) : s.blockLengthsOk = false ↔ s.slen ≠ 16 ∨ s.rklen ≠ 44 := by
  rw [← Bool.not_eq_true, State.blockLengthsOk_iff, not_and_or]

theorem checksThenStores_blkEnc (s : State) :
    ChecksThenStores .blkEnc s (.ok (encryptBlock s.sourceBlock s.rk)) :=
  checksThenStores_of_tests (wrongLength := !s.blockLengthsOk) (wrongLength' := false)
    (outside := !s.inMem s.sptr 16) rfl rfl (by simp [lengthTest, State.blockLengthsOk_eq_false_iff])
    (by simp [sourceRangeTest, State.inMem])

theorem checksThenStores_blkDec (s : State) :
    ChecksThenStores .blkDec s (decryptBlock s.sourceBlock s.rk) := by
  refine checksThenStores_of_tests (wrongLength := !s.blockLengthsOk) (wrongLength' := false)
    (outside := !s.inMem s.sptr 16) rfl ?_ (by simp [lengthTest, State.blockLengthsOk_eq_false_iff])
    (by simp [sourceRangeTest, State.inMem])
  cases decryptBlock s.sourceBlock s.rk <;> rfl

theorem checksThenStores_stStore (s : State) : ChecksThenStores .stStore s (.ok (stateToBytes s.st)) :=
  checksThenStores_of_tests (wrongLength := false) (wrongLength' := false) (outside := false) rfl rfl
    (by simp [lengthTest]) (by simp [sourceRangeTest])

/-! ### The ways to end -/

/-- With `FATAL` 0 the command ends in `LengthError` where a length test applies, and otherwise succeeds or ends in
`PaddingError` or `AccessFault`. -/
inductive LengthTestsDecide (i : Instr) (s : State) : Prop where
  | wrongLength (hlen : lengthTest i s) (h : EndsInError i s 2)
  | succeeds {t : State} (hlen : ¬ lengthTest i s) (h : exec i s = .next t) (hok : t.status = 0)
  | paddingError (hlen : ¬ lengthTest i s) (h : EndsInError i s 3)
  | accessFault (hlen : ¬ lengthTest i s) (h : EndsInError i s 4)

/-- A storing command ends so when, past the length tests, its computation can err only with `PaddingError`. -/
theorem ChecksThenStores.lengthTestsDecide {i : Instr} {s : State} {result : Except CommandError (List Byte)}
    (h : ChecksThenStores i s result) (hf : s.fatal = false)
    (hresult : ¬ lengthTest i s → result = .error .paddingError ∨ ∃ out, result = .ok out) :
    LengthTestsDecide i s := by
  by_cases hlen : lengthTest i s
  · exact .wrongLength hlen (h.wrongLength hf hlen)
  by_cases hsrc : sourceRangeTest i s
  · exact .accessFault hlen (h.sourceOutside hf hlen hsrc)
  obtain rfl | ⟨out, rfl⟩ := hresult hlen
  · exact .paddingError hlen (h.paddingError hf hlen hsrc)
  by_cases hdst : s.dptr.toNat + out.length ≤ s.memSize
  · exact .succeeds hlen (h.exec_eq hf hlen hsrc hdst) rfl
  · exact .accessFault hlen (h.resultOutside hf hlen hsrc (Nat.not_le.1 hdst))

theorem pkcs7Unpad_paddingError_or_ok (d : List Byte) (bs : Nat) :
    pkcs7Unpad d bs = .error .paddingError ∨ ∃ out, pkcs7Unpad d bs = .ok out := by
  cases h : pkcs7Unpad d bs with
  | error e => exact .inl (congrArg Except.error (pkcs7Unpad_error h))
  | ok out => exact .inr ⟨out, rfl⟩

/-- Past the length tests of `CBC_ENC` the encryption succeeds. -/
theorem exists_cbcEncrypt_eq_ok {s : State} {np : Bool} (hlen : ¬ lengthTest (.cbcEnc np) s) :
    ∃ out, cbcEncrypt s.keyBytes s.ivBytes s.sourceBytes np = .ok out := by
  refine ⟨_, cbcEncrypt_eq (length_keyBytes s) (length_ivBytes s) ?_⟩
  rw [lengthTest_cbcEnc_iff, not_or] at hlen
  rintro rfl
  simpa using hlen.2

/-- Past the length tests of `CBC_DEC` only the unpadding can fail. -/
theorem cbcDecrypt_paddingError_or_ok {s : State} {np : Bool} (hlen : ¬ lengthTest (.cbcDec np) s) :
    cbcDecrypt s.keyBytes s.ivBytes s.sourceBytes np = .error .paddingError
      ∨ ∃ out, cbcDecrypt s.keyBytes s.ivBytes s.sourceBytes np = .ok out := by
  have hct : positiveMultipleOf16 s.sourceBytes.length = true := by
    rw [lengthTest_cbcDec_iff, not_or] at hlen
    simpa using hlen.2
  obtain ⟨p, -, hp⟩ := exists_cbcDecrypt_eq np (length_keyBytes s) (length_ivBytes s) hct
  rw [hp]
  cases np with
  | false => exact pkcs7Unpad_paddingError_or_ok p blockSize
  | true => exact .inr ⟨p, rfl⟩

/-- Every well-formed command: those of R141's list by their tests, the inverse S-box commands because the search
succeeds, and the others because they only compute. -/
theorem lengthTestsDecide {i : Instr} {s : State} (hwf : i.wf = true) (hf : s.fatal = false) :
    LengthTestsDecide i s := by
  cases i with
  | gfDbl => exact .succeeds id (runCommand_result hf _) rfl
  | gfMul => exact .succeeds id (runCommand_result hf _) rfl
  | gfPow => exact .succeeds id (runCommand_result hf _) rfl
  | gfInv => exact .succeeds id (runCommand_result hf _) rfl
  | sboxFwd => exact .succeeds id (runCommand_result hf _) rfl
  | sboxInv =>
    obtain ⟨v, hv⟩ := forwardSbox_bijective.surjective s.a
    exact .succeeds id (exec_sboxInv hf hv) rfl
  | stLoad =>
    by_cases hlen : s.slen = 16
    · by_cases hin : s.sptr.toNat + 16 ≤ s.memSize
      · exact .succeeds (not_not.2 hlen) (exec_stLoad hf hlen hin) rfl
      · exact .accessFault (not_not.2 hlen) (exec_stLoad_outside hf hlen (Nat.not_le.1 hin))
    · exact .wrongLength hlen (exec_stLoad_wrongLength hf hlen)
  | stStore => exact (checksThenStores_stStore s).lengthTestsDecide hf fun _ => .inr ⟨_, rfl⟩
  | subBytes => exact .succeeds id (exec_subBytes hf) rfl
  | invSubBytes =>
    obtain ⟨g, hg⟩ := subBytes_surjective s.st
    exact .succeeds id (exec_invSubBytes hf hg) rfl
  | shiftRows => exact .succeeds id (exec_shiftRows hf) rfl
  | invShiftRows => exact .succeeds id (exec_invShiftRows hf) rfl
  | mixColumns => exact .succeeds id (exec_mixColumns hf) rfl
  | invMixColumns => exact .succeeds id (exec_invMixColumns hf) rfl
  | addRoundKey r =>
    have hr : r.toNat ≤ 10 := of_decide_eq_true hwf
    by_cases hlen : s.rklen.toNat < 4 * r.toNat + 4
    · exact .wrongLength hlen (exec_addRoundKey_shortSchedule hf hr hlen)
    · exact .succeeds hlen (exec_addRoundKey hf hr (Nat.not_lt.1 hlen)) rfl
  | keyExpand =>
    by_cases hlen : s.klen = 16
    · by_cases hin : s.kptr.toNat + 16 ≤ s.memSize
      · exact .succeeds (not_not.2 hlen) (exec_keyExpand hf hlen hin) rfl
      · exact .accessFault (not_not.2 hlen) (exec_keyExpand_outside hf hlen (Nat.not_le.1 hin))
    · exact .wrongLength hlen (exec_keyExpand_wrongLength hf hlen)
  | blkEnc => exact (checksThenStores_blkEnc s).lengthTestsDecide hf fun _ => .inr ⟨_, rfl⟩
  | blkDec =>
    obtain ⟨d, -, hd, -⟩ := exists_decryptBlock_eq_ok (isBlock_sourceBlock s) s.rk
    exact (checksThenStores_blkDec s).lengthTestsDecide hf fun _ => .inr ⟨d, hd⟩
  | pkcs7Pad => exact (checksThenStores_pkcs7Pad s).lengthTestsDecide hf fun _ => .inr ⟨_, rfl⟩
  | pkcs7Unpad =>
    exact (checksThenStores_pkcs7Unpad s).lengthTestsDecide hf fun _ => pkcs7Unpad_paddingError_or_ok _ _
  | cbcEnc np =>
    exact (checksThenStores_cbcEnc s np).lengthTestsDecide hf fun hlen => .inr (exists_cbcEncrypt_eq_ok hlen)
  | cbcDec np => exact (checksThenStores_cbcDec s np).lengthTestsDecide hf cbcDecrypt_paddingError_or_ok

/-- The `STATUS` in which a command ends that does so in an error. -/
theorem EndsInError.status_eq {i : Instr} {s t : State} {code : Word} (h : EndsInError i s code)
    (ht : exec i s = .next t) : t.status = code := by
  obtain rfl := Host.Outcome.next.inj (h.symm.trans ht)
  rfl

/-- What the ways to end leave in `STATUS`. -/
theorem LengthTestsDecide.status_cases {i : Instr} {s t : State} (h : LengthTestsDecide i s)
    (ht : exec i s = .next t) :
    (lengthTest i s ∧ t.status = 2) ∨ (¬ lengthTest i s ∧ (t.status = 0 ∨ t.status = 3 ∨ t.status = 4)) := by
  cases h with
  | wrongLength hlen h => exact .inl ⟨hlen, h.status_eq ht⟩
  | succeeds hlen h hok =>
    obtain rfl := Host.Outcome.next.inj (h.symm.trans ht)
    exact .inr ⟨hlen, .inl hok⟩
  | paddingError hlen h => exact .inr ⟨hlen, .inr (.inl (h.status_eq ht))⟩
  | accessFault hlen h => exact .inr ⟨hlen, .inr (.inr (h.status_eq ht))⟩

/-- Settles O15: `STATUS` is 2 where a length test applies, and 0, 3 or 4 where none does. -/
theorem lengthErrorExactly : Obligations.LengthErrorExactly := by
  intro i s t hwf hf ht
  rw [State.err]
  obtain ⟨hlen, hstatus⟩ | ⟨hlen, hstatus⟩ := (lengthTestsDecide hwf hf).status_cases ht
  · rw [hstatus]
    exact iff_of_true rfl hlen
  · refine iff_of_false ?_ hlen
    obtain h | h | h := hstatus <;> rw [h] <;> decide

end Sys2Proof.Machine
end

section
/-! `FATAL` over a step (60_exceptions.md R143, R146). `STATUS` changes only by `HostReset`, which clears `FATAL`, and
by a word written to `CMD`, which keeps it. -/

namespace Sys2Proof.Machine

/-- While `FATAL` is 1 no word is decoded (R146). -/
theorem writeCmd_locked {s : State} (hf : s.fatal = true) (w : Word) :
    writeCmd w s = .next { s with status := 0x16 } := by
  rw [writeCmd, if_pos hf, State.raise, hf]
  rfl

/-- Settles O13: the write to `CMD` and the command's meaning are both refused with `Locked`; the primitives besides
that write and reset leave `STATUS` as it is. -/
theorem lockedRefusesEveryWord : Obligations.LockedRefusesEveryWord := by
  intro s rest hf
  have hrefused (w : Word) (hp : s.pending = .writeReg 0x000 w :: rest) :
      step s = .next { s.start rest with status := 0x16 } :=
    (step_writeCmd hp).trans (writeCmd_locked (s := s.start rest) hf w)
  refine ⟨hrefused, fun i => exec_refusedWhenFatal i s hf, fun op hp hwf => ?_⟩
  by_cases hcmd : ∃ w, op = .writeReg 0x000 w
  · obtain ⟨w, rfl⟩ := hcmd
    exact ⟨_, hrefused w hp, .inl (show fatalBit 0x16 = true by decide)⟩
  by_cases hreset : op = .reset
  · exact ⟨_, step_reset (hreset ▸ hp), .inr hreset⟩
  · obtain ⟨t, ht, hstatus, -⟩ := hostAccessIgnoresStatus s op rest hp hwf (not_exists.1 hcmd) hreset
    exact ⟨t, ht, .inl (by rwa [State.fatal, hstatus])⟩

/-- A word that decodes to a command gives a well-formed one. -/
theorem wf_of_decode {w : Word} {i : Instr} (h : decode w = .ok i) : i.wf = true := by
  cases i with
  | addRoundKey r => exact decide_eq_true (toNat_le_ten_of_decode_addRoundKey h)
  | _ => rfl

theorem exec_keeps_notFatal {i : Instr} {s t : State} (hwf : i.wf = true) (hf : s.fatal = false)
    (h : exec i s = .next t) : t.fatal = false := by
  rw [State.fatal]
  obtain ⟨-, hstatus⟩ | ⟨-, hstatus | hstatus | hstatus⟩ := (lengthTestsDecide hwf hf).status_cases h <;>
    rw [hstatus] <;> decide

/-- A word written to `CMD` neither sets nor clears `FATAL`. -/
theorem writeCmd_keeps_fatal {w : Word} {s t : State} (h : writeCmd w s = .next t) : t.fatal = s.fatal := by
  obtain ⟨hf, rfl⟩ | ⟨hf, ⟨e, -, rfl⟩ | ⟨i, hi, ht⟩⟩ := writeCmd_cases h
  · rw [State.raise_fatal, hf]
    rfl
  · rw [State.raise_fatal, hf]
    rfl
  · rw [hf, exec_keeps_notFatal (wf_of_decode hi) hf ht]

/-- `FATAL` stays as it is in every step but `HostReset`, which clears it. -/
theorem step_fatal_cases {s t : State} (h : step s = .next t) :
    t.fatal = s.fatal ∨ (t.fatal = false ∧ ∃ rest, s.pending = .reset :: rest) := by
  obtain ⟨-, rfl⟩ | ⟨op, rest, hp, hop⟩ := step_cases h
  · exact .inl rfl
  obtain ⟨w, -, hw⟩ | ⟨_, reg, v, -, -, -, rfl⟩ | ⟨_, _, -, -, rfl⟩ | ⟨_, _, -, -, rfl⟩ | ⟨_, -, -, rfl⟩
    | ⟨rfl, rfl⟩ := hostOp_cases hop
  · exact .inl (writeCmd_keeps_fatal (s := s.start rest) hw)
  · exact .inl (congrArg fatalBit (State.writeReg_status (s.start rest) reg v))
  · exact .inl rfl
  · exact .inl rfl
  · exact .inl rfl
  · exact .inr ⟨State.fatal_of_status rfl, rest, hp⟩

/-- Settles O24: the body's `InvariantFault` is taken as any error is; `FATAL` is cleared or kept by every step, and
cleared by `HostReset` alone. -/
theorem fatalNeverSet : Obligations.FatalNeverSet := by
  refine ⟨fun _ _ hf hbody => runCommand_invariantFault hf hbody, fun s t hf ht => ?_, fun s t hf ht hf' => ?_⟩
  · obtain hkept | ⟨hcleared, -⟩ := step_fatal_cases ht
    · exact hkept.trans hf
    · exact hcleared
  · obtain hkept | ⟨-, hreset⟩ := step_fatal_cases ht
    · exact absurd (hf.symm.trans (hkept.symm.trans hf')) (by decide)
    · exact hreset

end Sys2Proof.Machine
end

section
/-! Encoding and decoding (30_encoding.md R45 to R48). The fields of a command word are determined by its command
(`fields_eq_of_decode`), and the four fields make up the word, so decoding is injective on the command words. -/

namespace Sys2Proof.Machine

/-- The `r` field of a command's word (30_encoding.md R46). -/
def rOperand : Instr → BitVec 4
  | .addRoundKey r => r
  | _ => 0

/-- The `np` field of a command's word (30_encoding.md R47). -/
def npOperand : Instr → Bool
  | .cbcEnc np => np
  | .cbcDec np => np
  | _ => false

theorem decode_encode {i : Instr} (hwf : i.wf = true) : decode (encode i) = .ok i := by
  cases i with
  | addRoundKey r =>
    obtain ⟨hdecode, -⟩ := encodes_addRoundKey (of_decide_eq_true hwf)
    exact hdecode
  | cbcEnc np => cases np <;> rfl
  | cbcDec np => cases np <;> rfl
  | _ => rfl

/-- A command without an operand has zero in both operand fields. -/
theorem operands_of_plainCommand {op : BitVec 8} {i : Instr} (h : plainCommand op = some i) :
    rOperand i = 0 ∧ npOperand i = false := by
  unfold plainCommand at h
  split at h <;> cases h <;> exact ⟨rfl, rfl⟩

/-- Each of the four fields of a word the decoder accepts is determined by the command. -/
theorem fields_eq_of_decode {w : Word} {i : Instr} (h : decode w = .ok i) :
    opField w = i.opcode ∧ zeroField w = 0 ∧ rField w = rOperand i ∧ npField w = npOperand i := by
  obtain ⟨hop, -⟩ := fields_of_decode_ok h
  obtain ⟨hz, ⟨-, hnp, -, rfl⟩ | ⟨-, hr, rfl⟩ | ⟨-, hr, rfl⟩ | ⟨hr, hnp, hplain⟩⟩ := (decode_ok_iff w i).1 h
  · exact ⟨hop, hz, rfl, hnp⟩
  · exact ⟨hop, hz, hr, rfl⟩
  · exact ⟨hop, hz, hr, rfl⟩
  · obtain ⟨hr0, hnp0⟩ := operands_of_plainCommand hplain
    exact ⟨hop, hz, hr.trans hr0.symm, hnp.trans hnp0.symm⟩

/-- No two words are the same command. -/
theorem decode_ok_injective {w x : Word} {i : Instr} (hw : decode w = .ok i) (hx : decode x = .ok i) : w = x := by
  obtain ⟨hop, hz, hr, hnp⟩ := fields_eq_of_decode hw
  obtain ⟨hop', hz', hr', hnp'⟩ := fields_eq_of_decode hx
  exact word_ext_fields (hop.trans hop'.symm) (hr.trans hr'.symm) (hnp.trans hnp'.symm) (hz.trans hz'.symm)

/-- Settles O2: `ADD_ROUND_KEY` by the fields of its word, every other word by evaluation. -/
theorem decodeOfEncode : Obligations.DecodeOfEncode := fun _ hwf => decode_encode hwf

/-- Settles O3: the command is well-formed, so its encoding decodes to it as well, and no two words do. -/
theorem encodeOfDecode : Obligations.EncodeOfDecode := fun _ _ h =>
  ⟨wf_of_decode h, decode_ok_injective (decode_encode (wf_of_decode h)) h⟩

theorem exists_decode_error_of_toBool {w : Word} (h : (!(decode w).toBool) = true) : ∃ e, decode w = .error e := by
  cases hw : decode w with
  | error e => exact ⟨e, rfl⟩
  | ok i =>
    rw [hw] at h
    cases h

/-- Settles O1: the words given are evaluated. -/
theorem sampleWordsDecode : Obligations.SampleWordsDecode := by
  refine ⟨rfl, rfl, rfl, rfl, rfl, rfl, fun w hw => ?_⟩
  exact exists_decode_error_of_toBool
    (List.all_eq_true.1 (show List.all _ (fun w => !(decode w).toBool) = true by decide) w hw)

end Sys2Proof.Machine
end

section
/-! Every step keeps the form of `MEM`, `MEMSIZE` and a legal `STATUS` (10_state.md R16, R21; 20_memory.md R30). What a
primitive does to `MEM` is one write inside it, a write of no Byte where it changes none. -/

namespace Sys2Proof.Machine

/-- What every host primitive keeps: `MEMSIZE`, what the host asks for next, and `MEM` but for one write inside it. -/
structure PrimitiveFrame (s t : State) : Prop where
  memSize_eq : t.memSize = s.memSize
  pending_eq : t.pending = s.pending
  mem_eq : ∃ a bytes, a + bytes.length ≤ s.memSize ∧ t.mem = Memory.writeBytes s.mem a bytes

theorem PrimitiveFrame.of_mem_eq {s t : State} (hsize : t.memSize = s.memSize) (hpending : t.pending = s.pending)
    (hmem : t.mem = s.mem) : PrimitiveFrame s t :=
  ⟨hsize, hpending, 0, [], Nat.zero_le _, hmem⟩

theorem Commit.primitiveFrame {s u : State} (h : Commit s u) : PrimitiveFrame s u.succeed := by
  cases h with
  | result v => exact .of_mem_eq rfl rfl rfl
  | grid g => exact .of_mem_eq rfl rfl rfl
  | schedule w => exact .of_mem_eq rfl rfl rfl
  | stored out hfit => exact ⟨rfl, rfl, s.dptr.toNat, out, hfit, rfl⟩

theorem exec_primitiveFrame {i : Instr} {s t : State} (h : exec i s = .next t) : PrimitiveFrame s t := by
  obtain ⟨-, rfl⟩ | ⟨-, ⟨e, -, rfl⟩ | ⟨u, hcommit, rfl⟩⟩ := exec_cases h
  · exact .of_mem_eq rfl rfl rfl
  · exact .of_mem_eq rfl rfl rfl
  · exact hcommit.primitiveFrame

theorem writeCmd_primitiveFrame {w : Word} {s t : State} (h : writeCmd w s = .next t) : PrimitiveFrame s t := by
  obtain ⟨-, rfl⟩ | ⟨-, ⟨e, -, rfl⟩ | ⟨i, -, hexec⟩⟩ := writeCmd_cases h
  · exact .of_mem_eq rfl rfl rfl
  · exact .of_mem_eq rfl rfl rfl
  · exact exec_primitiveFrame hexec

theorem hostOp_primitiveFrame {op : HostOp} {s t : State} (h : hostOp op s = .next t) : PrimitiveFrame s t := by
  obtain ⟨w, -, hw⟩ | ⟨_, reg, v, -, -, -, rfl⟩ | ⟨_, _, -, -, rfl⟩ | ⟨a, b, -, ha, rfl⟩ | ⟨_, -, -, rfl⟩
    | ⟨-, rfl⟩ := hostOp_cases h
  · exact writeCmd_primitiveFrame hw
  · exact .of_mem_eq (s.writeReg_memSize reg v) (s.writeReg_pending reg v) (s.writeReg_mem reg v)
  · exact .of_mem_eq rfl rfl rfl
  · exact ⟨rfl, rfl, a, [b], ha, rfl⟩
  · exact .of_mem_eq rfl rfl rfl
  · exact .of_mem_eq rfl rfl rfl

theorem PrimitiveFrame.keeps_memOk {s t : State} (h : PrimitiveFrame s t) (hok : s.memOk) : t.memOk := by
  obtain ⟨hsize, -, a, bytes, hfit, hmem⟩ := h
  obtain ⟨hwf, hwithin⟩ := hok
  rw [State.memOk, hsize, hmem]
  exact ⟨Memory.wf_writeBytes hwf a bytes, Memory.within_writeBytes hwithin hfit⟩

/-- Settles O22: one write inside `MEM` keeps the form and the bounds. -/
theorem memoryFormPreserved : Obligations.MemoryFormPreserved := by
  intro s t hok ht
  obtain ⟨-, rfl⟩ | ⟨op, rest, -, hop⟩ := step_cases ht
  · exact hok
  · exact (hostOp_primitiveFrame hop).keeps_memOk hok

/-- Settles O25: no primitive changes `MEMSIZE`. -/
theorem memSizeFixed : Obligations.MemSizeFixed := by
  intro s t ht
  obtain ⟨-, rfl⟩ | ⟨op, rest, -, hop⟩ := step_cases ht
  · rfl
  · exact (hostOp_primitiveFrame hop).memSize_eq

/-! ### `STATUS` (R16) -/

theorem statusLegal_statusWord {c : BitVec 4} (hc : c.toNat ≤ 6) (f : Bool) : statusLegal (statusWord c f) := by
  refine ⟨by rwa [errField_statusWord], ?_⟩
  rw [statusWord, BitVec.toNat_setWidth]
  exact (Nat.mod_le _ _).trans_lt (BitVec.isLt _)

theorem CommandError.code_le_six (e : CommandError) : e.code.toNat ≤ 6 := by
  cases e <;> decide

theorem State.statusLegal_raise (s : State) (e : CommandError) : statusLegal (s.raise e).status :=
  statusLegal_statusWord e.code_le_six _

theorem State.statusLegal_succeed (s : State) : statusLegal s.succeed.status :=
  statusLegal_statusWord (c := okCode) (Nat.zero_le 6) _

/-- A word written to `CMD` leaves a legal `STATUS`, whatever it was before. -/
theorem writeCmd_statusLegal {w : Word} {s t : State} (h : writeCmd w s = .next t) : statusLegal t.status := by
  obtain ⟨-, rfl⟩ | ⟨-, ⟨e, -, rfl⟩ | ⟨i, -, hexec⟩⟩ := writeCmd_cases h
  · exact s.statusLegal_raise _
  · exact s.statusLegal_raise _
  obtain ⟨-, rfl⟩ | ⟨-, ⟨e, -, rfl⟩ | ⟨u, -, rfl⟩⟩ := exec_cases hexec
  · exact s.statusLegal_raise _
  · exact s.statusLegal_raise e
  · exact u.statusLegal_succeed

/-- `STATUS` is zero after reset, and zero is a legal `STATUS`. -/
theorem statusLegal_reset : statusLegal State.reset.status := ⟨by decide, by decide⟩

/-- Settles O23: a write to `CMD` leaves a legal `STATUS`, `HostReset` zero, and every other primitive leaves it
alone. -/
theorem statusStaysLegal : Obligations.StatusStaysLegal := by
  intro s t hlegal ht
  obtain ⟨-, rfl⟩ | ⟨op, rest, -, hop⟩ := step_cases ht
  · exact hlegal
  obtain ⟨w, -, hw⟩ | ⟨_, reg, v, -, -, -, rfl⟩ | ⟨_, _, -, -, rfl⟩ | ⟨_, _, -, -, rfl⟩ | ⟨_, -, -, rfl⟩
    | ⟨-, rfl⟩ := hostOp_cases hop
  · exact writeCmd_statusLegal hw
  · rwa [State.writeReg_status]
  · exact hlegal
  · exact hlegal
  · exact hlegal
  · exact statusLegal_reset

/-! ### Reset (10_state.md R23, 70_reset_and_hazards.md R170) -/

theorem State.sizeOk_reset : State.reset.sizeOk := by
  have hmax := Config.memSizePred.isLt
  constructor
  · exact Nat.le_add_left 1 _
  · exact hmax

/-- Settles O21: nothing is listed as written, `STATUS` is zero, and MEMSIZE is the parameter of R6. -/
theorem invariantAtReset : Obligations.InvariantAtReset where
  memOk := ⟨Memory.wf_reset, rfl⟩
  statusLegal := statusLegal_reset
  notFatal := State.fatal_of_status rfl
  sizeOk := State.sizeOk_reset

/-- Settles O20: a reset step is `HostReset`, and `FATAL` is cleared by that alone (`fatalNeverSet`). -/
theorem hostResetAlone : Obligations.HostResetAlone := by
  obtain ⟨-, -, hclears⟩ := fatalNeverSet
  exact ⟨fun _ _ hp => step_reset hp, hclears⟩

/-! ### One step -/

/-- The write of a command's word to `CMD` is the command's meaning, which is refused like the word while `FATAL` is 1
(60_exceptions.md R146). -/
theorem writeCmd_of_decode {s : State} {w : Word} {i : Instr} (hw : decode w = .ok i) :
    writeCmd w s = exec i s := by
  by_cases hf : s.fatal = true
  · rw [writeCmd_locked hf, exec_refusedWhenFatal i s hf]
  · rw [writeCmd, if_neg hf, hw]

/-- Settles O6: the step is the write to `CMD`, and that is the command's meaning. -/
theorem stepRunsDecodedCommand : Obligations.StepRunsDecodedCommand := fun _ _ _ _ hp hw =>
  (step_writeCmd hp).trans (writeCmd_of_decode hw)

/-- Settles O7: the step's branch for an empty list. -/
theorem idleStepChangesNothing : Obligations.IdleStepChangesNothing := by
  intro s hp
  rw [step, hp]

theorem exec_ends (i : Instr) (s : State) : ∃ t, exec i s = .next t := by
  obtain ⟨body, hbody, -⟩ := exec_runs_body i s
  exact ⟨s.afterCommand body, hbody⟩

/-- Settles O17: every command is a body run by `runCommand`, which always answers a next state. -/
theorem commandsAlwaysEnd : Obligations.CommandsAlwaysEnd := exec_ends

end Sys2Proof.Machine
end

section
/-! Host reads and writes of registers and of `MEM` (20_memory.md R38, R39). What a register reads after a register
was written is said once: the written one (`readReg_writeReg_same`, with the narrow and the read-only ones beside it),
and any other (`readReg_writeReg_other`). -/

namespace Sys2Proof.Machine

/-! ### The register map -/

@[simp] theorem regAt_offset (reg : RegName) : regAt reg.offset = some reg := by
  cases reg with
  | stcol c => decide +revert
  | rk i => decide +revert
  | _ => rfl

/-- At an offset that is not listed there is no register. -/
theorem regAt_eq_none_of_not_listed {off : Nat} (h : regOffsetListed off = false) : regAt off = none := by
  unfold regAt
  split
  case h_15 =>
    simp only [regOffsetListed, Bool.and_eq_false_iff, Bool.or_eq_false_iff, beq_eq_false_iff_ne, ne_eq,
      decide_eq_false_iff_not] at h
    split_ifs with haligned hcolumn hword
    · rfl
    · omega
    · omega
    · rfl
  all_goals exact absurd h (by decide)

/-! ### Register reads (R39) -/

/-- What a register reads as does not depend on what the host asks for. -/
theorem State.readReg_start (s : State) (rest : List HostOp) (reg : RegName) :
    (s.start rest).readReg reg = s.readReg reg := by
  cases reg <;> rfl

theorem step_readReg_offset {s : State} {rest : List HostOp} {reg : RegName}
    (h : s.pending = .readReg reg.offset :: rest) :
    step s = .next { s with pending := rest, returned := some (.reg (s.readReg reg)) } := by
  rw [step_readReg h (regAt_offset reg), State.readReg_start]
  rfl

/-- Settles O8: each row of R39 is a register at its offset with the value it reads as. -/
theorem hostRegisterReads : Obligations.HostRegisterReads := by
  intro s rest off v hp hrow
  obtain ⟨reg, rfl, rfl⟩ : ∃ reg : RegName, off = reg.offset ∧ v = s.readReg reg := by
    obtain h | h | h | h | h | h | h | h | h | h | h | h | h | h | ⟨c, h⟩ | ⟨i, h⟩ := hrow
    exacts [⟨.cmd, h⟩, ⟨.status, h⟩, ⟨.a, h⟩, ⟨.b, h⟩, ⟨.r, h⟩, ⟨.rklen, h⟩, ⟨.kptr, h⟩, ⟨.klen, h⟩, ⟨.iptr, h⟩,
      ⟨.ilen, h⟩, ⟨.sptr, h⟩, ⟨.slen, h⟩, ⟨.dptr, h⟩, ⟨.dlen, h⟩, ⟨.stcol c, h⟩, ⟨.rk i, h⟩]
  exact step_readReg_offset hp

/-! ### Register writes (R39) -/

/-- The four Bytes of a Word, packed, are the Word (R32). -/
theorem pack_byteOf (w : Word) : pack (byteOf w 0) (byteOf w 1) (byteOf w 2) (byteOf w 3) = w := by
  have htwo : w.extractLsb' 24 8 ++ w.extractLsb' 16 8 = w.extractLsb' 16 16 :=
    BitVec.extractLsb'_append_extractLsb'_eq_extractLsb' rfl
  have hthree : w.extractLsb' 16 16 ++ w.extractLsb' 8 8 = w.extractLsb' 8 24 :=
    BitVec.extractLsb'_append_extractLsb'_eq_extractLsb' rfl
  have hfour : w.extractLsb' 8 24 ++ w.extractLsb' 0 8 = w.extractLsb' 0 32 :=
    BitVec.extractLsb'_append_extractLsb'_eq_extractLsb' rfl
  calc pack (byteOf w 0) (byteOf w 1) (byteOf w 2) (byteOf w 3)
      = w.extractLsb' 24 8 ++ w.extractLsb' 16 8 ++ w.extractLsb' 8 8 ++ w.extractLsb' 0 8 := rfl
    _ = w.extractLsb' 0 32 := by rw [htwo, hthree, hfour]
    _ = w := BitVec.extractLsb'_eq_self

/-- The low 8 bits of a Word, zero-extended. -/
theorem setWidth_low_byte (v : Word) : (v.setWidth 8).setWidth 32 = v &&& 0xFF := by
  have hmask : (0xFF : Word).toNat = 2 ^ 8 - 1 := rfl
  refine BitVec.eq_of_toNat_eq ?_
  rw [BitVec.toNat_and, hmask, Nat.and_two_pow_sub_one_eq_mod, BitVec.toNat_setWidth, BitVec.toNat_setWidth]
  omega

theorem Grid.column_eq (g : Grid) (c : Fin 4) :
    Grid.column g c = pack g[(0 : Fin 4)][c] g[(1 : Fin 4)][c] g[(2 : Fin 4)][c] g[(3 : Fin 4)][c] := rfl

theorem Grid.getElem_setColumn (g : Grid) (c : Fin 4) (w : Word) (i j : Fin 4) :
    (Grid.setColumn g c w)[i][j] = if j = c then byteOf w i else g[i][j] :=
  Grid.getElem_ofFn _ i j

theorem Grid.column_setColumn_same (g : Grid) (c : Fin 4) (w : Word) :
    Grid.column (Grid.setColumn g c w) c = w := by
  simp only [Grid.column_eq, Grid.getElem_setColumn, if_true, pack_byteOf]

theorem Grid.column_setColumn_other (g : Grid) {c d : Fin 4} (w : Word) (h : d ≠ c) :
    Grid.column (Grid.setColumn g c w) d = Grid.column g d := by
  simp only [Grid.column_eq, Grid.getElem_setColumn, if_neg h]

/-- A register other than the one written reads as before. -/
theorem State.readReg_writeReg_other (s : State) {reg q : RegName} (v : Word) (h : q ≠ reg) :
    (s.writeReg reg v).readReg q = s.readReg q := by
  cases reg with
  | stcol c =>
    cases q with
    | stcol d => exact Grid.column_setColumn_other s.st v (fun hd => h (congrArg RegName.stcol hd))
    | _ => rfl
  | rk i =>
    cases q with
    | rk j => exact Vector.getElem_set_ne i.isLt j.isLt (fun hij => h (congrArg RegName.rk (Fin.ext hij.symm)))
    | _ => rfl
  | _ =>
    -- A register without an index: `q` reads another field, or is the register itself.
    cases q <;> first | rfl | exact absurd rfl h

/-- A register of 32 bits reads as what was written to it. -/
theorem State.readReg_writeReg_same (s : State) {reg : RegName} (v : Word) (hcmd : reg ≠ .cmd)
    (hstatus : reg ≠ .status) (hr : reg ≠ .r) (ha : reg ≠ .a) (hb : reg ≠ .b) :
    (s.writeReg reg v).readReg reg = v := by
  cases reg with
  | cmd => exact absurd rfl hcmd
  | status => exact absurd rfl hstatus
  | r => exact absurd rfl hr
  | a => exact absurd rfl ha
  | b => exact absurd rfl hb
  | stcol c => exact Grid.column_setColumn_same s.st c v
  | rk i => exact Vector.getElem_set_self i.isLt
  | _ => rfl

/-- Settles O9: the step is `State.writeReg`; `STATUS` and `R` ignore it, `A` and `B` keep the low 8 bits. -/
theorem hostRegisterWrites : Obligations.HostRegisterWrites := by
  intro s rest reg v hcmd hp
  refine ⟨_, step_writeReg hp (regAt_offset reg) hcmd, State.writeReg_pending _ reg v, State.writeReg_returned _ reg v,
    State.writeReg_mem _ reg v, State.writeReg_memSize _ reg v, fun q hq => ?_, ?_, ?_, fun hstatus hr ha hb => ?_⟩
  · rw [State.readReg_writeReg_other _ v hq, State.readReg_start]
  · rintro (rfl | rfl) <;> rfl
  · rintro (rfl | rfl) <;> exact setWidth_low_byte v
  · exact State.readReg_writeReg_same _ v hcmd hstatus hr ha hb

/-! ### Bytes of `MEM` (R38) -/

/-- Settles O10: the write is a write of a sequence of one Byte. -/
theorem hostMemoryReadsAndWrites : Obligations.HostMemoryReadsAndWrites := by
  refine fun s rest a ha => ⟨fun b hp => ⟨_, step_writeMem hp ha, rfl, ?_, fun x hx => ?_⟩, fun hp => ?_⟩
  · exact State.byteAt_memWrite_inside (s.start rest) a [b] (k := 0) (Nat.zero_lt_one)
  · exact State.byteAt_memWrite_outside (s.start rest) [b] (by rw [List.length_singleton]; omega)
  · exact step_readMem hp ha

end Sys2Proof.Machine
end

section
/-! Which steps are refused (93_implementation_defined.md U2): a primitive that the spec gives an effect always ends in
a next state, since every command does, and the two others are refused by name. -/

namespace Sys2Proof.Machine

/-- A word written to `CMD` always ends in a next state. -/
theorem writeCmd_ends (w : Word) (s : State) : ∃ t, writeCmd w s = .next t := by
  unfold writeCmd
  split_ifs
  · exact ⟨_, rfl⟩
  cases decode w with
  | error e => exact ⟨_, rfl⟩
  | ok i => exact exec_ends i s

theorem hostOp_ends_of_wf {op : HostOp} {s : State} (h : op.wf s.memSize = true) : ∃ t, hostOp op s = .next t := by
  cases op with
  | writeReg off v =>
    obtain ⟨reg, hreg⟩ := exists_regAt_of_listed h
    simp only [hostOp, hostWriteReg, hreg]
    cases reg with
    | cmd => exact writeCmd_ends v s
    | _ => exact ⟨_, rfl⟩
  | readReg off =>
    obtain ⟨reg, hreg⟩ := exists_regAt_of_listed h
    simp only [hostOp, hostReadReg, hreg]
    exact ⟨_, rfl⟩
  | writeMem a b => exact ⟨_, if_pos (of_decide_eq_true h)⟩
  | readMem a => exact ⟨_, if_pos (of_decide_eq_true h)⟩
  | reset => exact ⟨_, rfl⟩

theorem hostOp_refused_of_not_wf {op : HostOp} {s : State} (h : op.wf s.memSize = false) :
    ∃ r, hostOp op s = .refused r := by
  cases op with
  | writeReg off v => exact ⟨.hostRegUnlisted off, by simp only [hostOp, hostWriteReg, regAt_eq_none_of_not_listed h]⟩
  | readReg off => exact ⟨.hostRegUnlisted off, by simp only [hostOp, hostReadReg, regAt_eq_none_of_not_listed h]⟩
  | writeMem a b => exact ⟨_, if_neg (of_decide_eq_false h)⟩
  | readMem a => exact ⟨_, if_neg (of_decide_eq_false h)⟩
  | reset => cases h

theorem step_cons {s : State} {op : HostOp} {rest : List HostOp} (h : s.pending = op :: rest) :
    step s = hostOp op (s.start rest) := by
  rw [step, h]

/-- Settles O11: a primitive with an effect ends in a next state, another is refused, and no primitive changes what the
host asks for after it or `MEMSIZE`. -/
theorem onlyUnlistedHostAccessRefused : Obligations.OnlyUnlistedHostAccessRefused := by
  refine fun s => ⟨fun op rest hp => ?_, fun hok => ?_⟩
  · rw [step_cons hp]
    refine ⟨fun hwf => hostOp_refused_of_not_wf hwf, fun ⟨r, hr⟩ => Bool.eq_false_iff.2 fun hwf => ?_⟩
    obtain ⟨t, ht⟩ := hostOp_ends_of_wf (s := s.start rest) hwf
    rw [ht] at hr
    cases hr
  · cases hp : s.pending with
    | nil => exact ⟨s, idleStepChangesNothing s hp, hok⟩
    | cons op rest =>
      rw [State.hostOk, hp, List.all_cons, Bool.and_eq_true] at hok
      obtain ⟨hop, hrest⟩ := hok
      obtain ⟨t, ht⟩ := hostOp_ends_of_wf (s := s.start rest) hop
      obtain ⟨hsize, hpending, -⟩ := hostOp_primitiveFrame ht
      refine ⟨t, (step_cons hp).trans ht, ?_⟩
      rw [State.hostOk, hpending, hsize]
      exact hrest

end Sys2Proof.Machine
end

section
/-! The order of checks (60_exceptions.md R147). A storing command keeps to the order by `ChecksThenStores`; the others
have no computation that can fail and no destination, so past their tests they succeed. -/

namespace Sys2Proof.Machine

/-! ### What the tests and the computation look at -/

theorem lengthTest_start (i : Instr) (s : State) (rest : List HostOp) :
    lengthTest i (s.start rest) = lengthTest i s := by
  cases i <;> rfl

theorem sourceRangeTest_start (i : Instr) (s : State) (rest : List HostOp) :
    sourceRangeTest i (s.start rest) = sourceRangeTest i s := by
  cases i <;> rfl

theorem storedResult_start (i : Instr) (s : State) (rest : List HostOp) :
    storedResult i (s.start rest) = storedResult i s := by
  cases i <;> rfl

/-! ### The storing commands -/

/-- Every storing command tests, computes its result and stores it, in that order. -/
theorem checksThenStores_of_storedResult {i : Instr} {s : State} {result : Except CommandError (List Byte)}
    (h : storedResult i s = some result) : ChecksThenStores i s result := by
  cases i with
  | stStore => exact Option.some.inj h ▸ checksThenStores_stStore s
  | blkEnc => exact Option.some.inj h ▸ checksThenStores_blkEnc s
  | blkDec => exact Option.some.inj h ▸ checksThenStores_blkDec s
  | pkcs7Pad => exact Option.some.inj h ▸ checksThenStores_pkcs7Pad s
  | pkcs7Unpad => exact Option.some.inj h ▸ checksThenStores_pkcs7Unpad s
  | cbcEnc np => exact Option.some.inj h ▸ checksThenStores_cbcEnc s np
  | cbcDec np => exact Option.some.inj h ▸ checksThenStores_cbcDec s np
  | _ => cases h

/-- Past the length tests a result is `PaddingError` or a byte sequence. -/
theorem storedResult_paddingError_or_ok {i : Instr} {s : State} {result : Except CommandError (List Byte)}
    (hlen : ¬ lengthTest i s) (h : storedResult i s = some result) :
    result = .error .paddingError ∨ ∃ out, result = .ok out := by
  cases i with
  | stStore => exact .inr ⟨_, (Option.some.inj h).symm⟩
  | blkEnc => exact .inr ⟨_, (Option.some.inj h).symm⟩
  | blkDec =>
    obtain ⟨d, -, hd, -⟩ := exists_decryptBlock_eq_ok (isBlock_sourceBlock s) s.rk
    exact .inr ⟨d, (Option.some.inj h).symm.trans hd⟩
  | pkcs7Pad => exact .inr ⟨_, (Option.some.inj h).symm⟩
  | pkcs7Unpad => exact Option.some.inj h ▸ pkcs7Unpad_paddingError_or_ok _ _
  | cbcEnc np => exact .inr (Option.some.inj h ▸ exists_cbcEncrypt_eq_ok hlen)
  | cbcDec np => exact Option.some.inj h ▸ cbcDecrypt_paddingError_or_ok hlen
  | _ => cases h

/-! ### The commands that store nothing -/

/-- A source range that leaves `MEM` ends the command in `AccessFault`. -/
theorem endsInError_of_sourceRangeTest {i : Instr} {s : State} (hf : s.fatal = false) (hlen : ¬ lengthTest i s)
    (hsrc : sourceRangeTest i s) : EndsInError i s 4 := by
  cases hresult : storedResult i s with
  | some result => exact (checksThenStores_of_storedResult hresult).sourceOutside hf hlen hsrc
  | none =>
    cases i with
    | stLoad => exact exec_stLoad_outside hf (not_not.1 hlen) hsrc
    | keyExpand => exact exec_keyExpand_outside hf (not_not.1 hlen) hsrc
    | blkEnc | blkDec | pkcs7Pad | pkcs7Unpad | cbcEnc | cbcDec => cases hresult
    | _ => exact hsrc.elim

/-- A command that stores nothing succeeds when its tests do. -/
theorem succeeds_of_storedResult_none {i : Instr} {s : State} (hwf : i.wf = true) (hf : s.fatal = false)
    (hlen : ¬ lengthTest i s) (hsrc : ¬ sourceRangeTest i s) (hresult : storedResult i s = none) :
    ∃ t, exec i s = .next t ∧ t.status = 0 := by
  cases i with
  | stLoad => exact ⟨_, exec_stLoad hf (not_not.1 hlen) (Nat.not_lt.1 hsrc), rfl⟩
  | keyExpand => exact ⟨_, exec_keyExpand hf (not_not.1 hlen) (Nat.not_lt.1 hsrc), rfl⟩
  | addRoundKey r =>
    have hr : r.toNat ≤ 10 := of_decide_eq_true hwf
    exact ⟨_, exec_addRoundKey hf hr (Nat.not_lt.1 hlen), rfl⟩
  | sboxInv =>
    obtain ⟨v, hv⟩ := forwardSbox_bijective.surjective s.a
    exact ⟨_, exec_sboxInv hf hv, rfl⟩
  | invSubBytes =>
    obtain ⟨g, hg⟩ := subBytes_surjective s.st
    exact ⟨_, exec_invSubBytes hf hg, rfl⟩
  | gfDbl | gfMul | gfPow | gfInv | sboxFwd => exact ⟨_, runCommand_result hf _, rfl⟩
  | subBytes | shiftRows | invShiftRows | mixColumns | invMixColumns => exact ⟨_, runCommand_grid hf _, rfl⟩
  | stStore | blkEnc | blkDec | pkcs7Pad | pkcs7Unpad | cbcEnc | cbcDec => cases hresult

/-! ### The order -/

theorem EndsInError.err_eq {i : Instr} {s t : State} {code : Word} (h : EndsInError i s code)
    (ht : exec i s = .next t) : t.err = errField code := by
  rw [State.err, h.status_eq ht]

theorem err_eq_zero_of_succeeds {i : Instr} {s t : State} (h : ∃ u, exec i s = .next u ∧ u.status = 0)
    (ht : exec i s = .next t) : t.err = 0 := by
  obtain ⟨u, hu, hok⟩ := h
  obtain rfl := Host.Outcome.next.inj (hu.symm.trans ht)
  rw [State.err, hok]
  rfl

/-- R147 from step 3 on, for a command that starts in `s` and leaves `t`. -/
def KeepsCheckOrder (i : Instr) (s t : State) : Prop :=
  (lengthTest i s → t.err = 2)
  ∧ (¬ lengthTest i s →
    (sourceRangeTest i s → t.err = 4)
    ∧ (¬ sourceRangeTest i s →
      (storedResult i s = none → t.err = 0)
      ∧ (∀ e, storedResult i s = some (.error e) → t.err = e.code ∧ e = .paddingError)
      ∧ ∀ out, storedResult i s = some (.ok out) →
          (s.memSize < s.dptr.toNat + out.length → t.err = 4)
          ∧ (s.dptr.toNat + out.length ≤ s.memSize → t.err = 0)))

theorem keepsCheckOrder_start {i : Instr} {s t : State} {rest : List HostOp}
    (h : KeepsCheckOrder i (s.start rest) t) : KeepsCheckOrder i s t := by
  rw [KeepsCheckOrder, lengthTest_start, sourceRangeTest_start, storedResult_start] at h
  exact h

theorem exec_keepsCheckOrder {i : Instr} {s t : State} (hwf : i.wf = true) (hf : s.fatal = false)
    (ht : exec i s = .next t) : KeepsCheckOrder i s t := by
  refine ⟨(lengthErrorExactly i s t hwf hf ht).mpr, fun hlen => ⟨fun hsrc => ?_, fun hsrc =>
    ⟨fun hnone => ?_, fun e he => ?_, fun out hout => ⟨fun hdst => ?_, fun hdst => ?_⟩⟩⟩⟩
  · exact (endsInError_of_sourceRangeTest hf hlen hsrc).err_eq ht
  · exact err_eq_zero_of_succeeds (succeeds_of_storedResult_none hwf hf hlen hsrc hnone) ht
  · obtain herror | ⟨out, hok⟩ := storedResult_paddingError_or_ok hlen he
    · cases herror
      exact ⟨((checksThenStores_of_storedResult he).paddingError hf hlen hsrc).err_eq ht, rfl⟩
    · cases hok
  · exact ((checksThenStores_of_storedResult hout).resultOutside hf hlen hsrc hdst).err_eq ht
  · exact err_eq_zero_of_succeeds ⟨_, (checksThenStores_of_storedResult hout).exec_eq hf hlen hsrc hdst, rfl⟩ ht

/-- Settles O14: `Locked` and `IllegalCommand` by the write to `CMD`, the rest by the command. -/
theorem checkOrder : Obligations.CheckOrder := by
  intro s t w rest hp ht
  rw [step_writeCmd hp] at ht
  refine ⟨fun hf => ?_, fun hf => ⟨fun e hw => ?_, fun i hw => ?_⟩⟩
  · rw [writeCmd_locked (s := s.start rest) hf] at ht
    cases ht
    exact show errField 0x16 = 6 by decide
  · rw [writeCmd_illegal (s := s.start rest) hf hw] at ht
    cases ht
    exact show errField 1 = 1 by decide
  · rw [writeCmd_of_decode hw] at ht
    exact keepsCheckOrder_start (exec_keepsCheckOrder (wf_of_decode hw) hf ht)

end Sys2Proof.Machine
end

section
/-! Round trip and splitting of chains (45_padding_cbc.md R131, 70_reset_and_hazards.md R177), by induction over the
blocks: each step of a chain is a block operation and an XOR, and both can be undone. -/

namespace Sys2Proof.Machine

theorem isBlock_xorBlock {x y : List Byte} (hx : IsBlock x) (hy : IsBlock y) : IsBlock (xorBlock x y) := by
  rw [IsBlock, length_xorBlock, hx, hy]
  rfl

/-- A sequence of `n + 1` blocks is its first block and `n` others. -/
theorem exists_block_append {p : List Byte} {n : Nat} (hp : p.length = 16 * (n + 1)) :
    ∃ b rest, p = b ++ rest ∧ IsBlock b ∧ rest.length = 16 * n := by
  refine ⟨p.take 16, p.drop 16, (List.take_append_drop 16 p).symm, ?_, ?_⟩
  · rw [IsBlock, List.length_take]
    omega
  · rw [List.length_drop]
    omega

theorem encryptChain_block_append (w : Schedule) (n : Nat) (chain rest : List Byte) {b : List Byte} (hb : IsBlock b) :
    encryptChain w (n + 1) chain (b ++ rest)
      = encryptBlock (xorBlock b chain) w ++ encryptChain w n (encryptBlock (xorBlock b chain) w) rest := by
  rw [encryptChain, List.take_left' hb, List.drop_left' hb]

theorem decryptChain_block_append {w : Schedule} {n : Nat} {chain rest c d p : List Byte} (hc : IsBlock c)
    (hd : decryptBlock c w = .ok d) (hp : decryptChain w n c rest = .ok p) :
    decryptChain w (n + 1) chain (c ++ rest) = .ok (xorBlock d chain ++ p) := by
  simp only [decryptChain, List.take_left' hc, List.drop_left' hc, hd, hp]

/-! ### Round trips (R131) -/

theorem decryptChain_encryptChain (w : Schedule) {n : Nat} {chain p : List Byte} (hchain : IsBlock chain)
    (hp : p.length = 16 * n) : decryptChain w n chain (encryptChain w n chain p) = .ok p := by
  induction n generalizing chain p with
  | zero =>
    obtain rfl := List.eq_nil_of_length_eq_zero hp
    rfl
  | succ n ih =>
    obtain ⟨b, rest, rfl, hb, hrest⟩ := exists_block_append hp
    have hc : IsBlock (encryptBlock (xorBlock b chain) w) := length_encryptBlock _ w
    rw [encryptChain_block_append w n chain rest hb, decryptChain_block_append hc
      (decryptBlock_encryptBlock (isBlock_xorBlock hb hchain) w) (ih hc hrest), xorBlock_cancel (hb.trans hchain.symm)]

/-- The chain over a ciphertext succeeds, with a plaintext that encrypts to it. -/
theorem exists_decryptChain_encryptChain (w : Schedule) {n : Nat} {chain ct : List Byte} (hchain : IsBlock chain)
    (hct : ct.length = 16 * n) :
    ∃ p, decryptChain w n chain ct = .ok p ∧ p.length = ct.length ∧ encryptChain w n chain p = ct := by
  induction n generalizing chain ct with
  | zero =>
    obtain rfl := List.eq_nil_of_length_eq_zero hct
    exact ⟨[], rfl, rfl, rfl⟩
  | succ n ih =>
    obtain ⟨c, rest, rfl, hc, hrest⟩ := exists_block_append hct
    obtain ⟨d, hd, hdecrypt, hencrypt⟩ := exists_decryptBlock_eq_ok hc w
    obtain ⟨p, hp, hlen, hback⟩ := ih hc hrest
    have hfirst : IsBlock (xorBlock d chain) := isBlock_xorBlock hd hchain
    refine ⟨xorBlock d chain ++ p, decryptChain_block_append hc hdecrypt hp, ?_, ?_⟩
    · rw [List.length_append, List.length_append, hfirst, hc, hlen]
    · rw [encryptChain_block_append w n chain p hfirst, xorBlock_cancel (hd.trans hchain.symm), hencrypt, hback]

/-- With the lengths right `cbc_decrypt` is its chain, unpadded unless `np`. -/
theorem cbcDecrypt_eq_of_decryptChain {key iv ct p : List Byte} (np : Bool) (hkey : key.length = 16)
    (hiv : iv.length = 16) (hct : positiveMultipleOf16 ct.length = true)
    (hp : decryptChain (expandKey key) (ct.length / 16) iv ct = .ok p) :
    cbcDecrypt key iv ct np = if np then .ok p else pkcs7Unpad p blockSize := by
  simp only [cbcDecrypt, hkey, hiv, hct, hp]
  rfl

theorem positiveMultipleOf16_chainedPlaintext {pt : List Byte} {np : Bool}
    (hnp : np = true → positiveMultipleOf16 pt.length = true) :
    positiveMultipleOf16 (chainedPlaintext pt np).length = true := by
  cases np with
  | false =>
    have hpads : PadsTo 16 pt (pkcs7Pad pt 16) := (pkcs7Pad_eq_iff_padsTo (by decide)).1 rfl
    exact (positiveMultipleOf16_iff _).2 ⟨Nat.ne_zero_of_lt hpads.length_lt, hpads.length_mod⟩
  | true => exact hnp rfl

/-- What `cbc_decrypt` does to the decrypted chain takes back what `cbc_encrypt` did to the plaintext. -/
theorem unpad_chainedPlaintext (pt : List Byte) (np : Bool) :
    (if np then .ok (chainedPlaintext pt np) else pkcs7Unpad (chainedPlaintext pt np) blockSize) = .ok pt := by
  cases np with
  | false =>
    have hpads : PadsTo 16 pt (pkcs7Pad pt 16) := (pkcs7Pad_eq_iff_padsTo (by decide)).1 rfl
    exact hpads.pkcs7Unpad_eq (by decide)
  | true => rfl

theorem cbcDecrypt_cbcEncrypt {key iv pt : List Byte} {np : Bool} (hkey : key.length = 16) (hiv : iv.length = 16)
    (hnp : np = true → positiveMultipleOf16 pt.length = true) :
    ∃ ct, cbcEncrypt key iv pt np = .ok ct ∧ cbcDecrypt key iv ct np = .ok pt := by
  have hblocks := positiveMultipleOf16_chainedPlaintext hnp
  refine ⟨_, cbcEncrypt_eq hkey hiv hnp, ?_⟩
  generalize hp : chainedPlaintext pt np = p at hblocks ⊢
  have hwhole : p.length = 16 * (p.length / 16) := by
    have hmod := ((positiveMultipleOf16_iff _).1 hblocks).2
    omega
  have hlen : (encryptChain (expandKey key) (p.length / 16) iv p).length = p.length := by
    rw [length_encryptChain, ← hwhole]
  rw [cbcDecrypt_eq_of_decryptChain np hkey hiv (by rwa [hlen])
    (by rw [hlen]; exact decryptChain_encryptChain _ hiv hwhole), ← hp, unpad_chainedPlaintext]

theorem cbcEncrypt_cbcDecrypt {key iv ct : List Byte} (hkey : key.length = 16) (hiv : iv.length = 16)
    (hct : positiveMultipleOf16 ct.length = true) :
    ∃ pt, cbcDecrypt key iv ct true = .ok pt ∧ cbcEncrypt key iv pt true = .ok ct := by
  have hwhole : ct.length = 16 * (ct.length / 16) := by
    have hmod := ((positiveMultipleOf16_iff _).1 hct).2
    omega
  obtain ⟨p, hp, hlen, hback⟩ := exists_decryptChain_encryptChain (expandKey key) hiv hwhole
  refine ⟨p, cbcDecrypt_eq_of_decryptChain true hkey hiv hct hp, ?_⟩
  rw [cbcEncrypt_eq hkey hiv (fun _ => hlen ▸ hct), chainedPlaintext, if_pos rfl, hlen, hback]

/-- Settles O56: the two chains undo each other, and unpadding undoes padding. -/
theorem cbcRoundTrip : Obligations.CbcRoundTrip := by
  refine fun key iv hkey hiv => ⟨fun pt => cbcDecrypt_cbcEncrypt hkey hiv (nofun), fun x hpos hmod => ?_⟩
  have hx : positiveMultipleOf16 x.length = true := (positiveMultipleOf16_iff _).2 ⟨hpos.ne', hmod⟩
  exact ⟨cbcDecrypt_cbcEncrypt hkey hiv (fun _ => hx), cbcEncrypt_cbcDecrypt hkey hiv hx⟩

/-! ### Splitting (70_reset_and_hazards.md R177) -/

/-- The chain over two parts: the second starts from the chain value that the first leaves. -/
theorem encryptChain_append (w : Schedule) {m : Nat} (n : Nat) {chain p : List Byte} (q : List Byte)
    (hp : p.length = 16 * m) :
    encryptChain w (m + n) chain (p ++ q) = encryptChain w m chain p
      ++ encryptChain w n (chainOf chain (encryptChain w m chain p) m) q := by
  induction m generalizing chain p with
  | zero =>
    obtain rfl := List.eq_nil_of_length_eq_zero hp
    rw [Nat.zero_add]
    rfl
  | succ m ih =>
    obtain ⟨b, rest, rfl, hb, hrest⟩ := exists_block_append hp
    have hc : IsBlock (encryptBlock (xorBlock b chain) w) := length_encryptBlock _ w
    rw [Nat.succ_add, List.append_assoc, encryptChain_block_append w (m + n) chain _ hb,
      encryptChain_block_append w m chain rest hb, ih hrest, chainOf_append_succ hc, List.append_assoc]

/-- Unpadded encryption of whole blocks is the chain over them. -/
theorem cbcEncrypt_unpadded {key iv p : List Byte} {m : Nat} (hkey : key.length = 16) (hiv : iv.length = 16)
    (hp : p.length = 16 * m) (hm : 0 < m) :
    cbcEncrypt key iv p true = .ok (encryptChain (expandKey key) m iv p) := by
  have hblocks : positiveMultipleOf16 p.length = true := (positiveMultipleOf16_iff _).2 (by omega)
  have hcount : p.length / 16 = m := by omega
  rw [cbcEncrypt_eq hkey hiv (fun _ => hblocks), chainedPlaintext, if_pos rfl, hcount]

/-- Settles O59: the chain over both parts, split after the first. -/
theorem chainingSplits : Obligations.ChainingSplits := by
  intro key iv p q hkey hiv hp0 hpmod hq0 hqmod
  obtain ⟨m, hm⟩ := Nat.dvd_of_mod_eq_zero hpmod
  obtain ⟨n, hn⟩ := Nat.dvd_of_mod_eq_zero hqmod
  have hlast : chainOf iv (encryptChain (expandKey key) m iv p) m
      = blockOf (encryptChain (expandKey key) m iv p) (p.length / 16 - 1) := by
    rw [chainOf, if_neg (by omega), hm, Nat.mul_div_cancel_left m (by decide)]
  have hlastBlock : IsBlock (blockOf (encryptChain (expandKey key) m iv p) (p.length / 16 - 1)) :=
    isBlock_blockOf (by rw [length_encryptChain]; omega) (by rw [length_encryptChain]; omega)
  refine ⟨_, _, cbcEncrypt_unpadded hkey hiv hm (by omega), cbcEncrypt_unpadded hkey hlastBlock hn (by omega), ?_⟩
  have hwhole : (p ++ q).length = 16 * (m + n) := by
    rw [List.length_append]
    omega
  rw [cbcEncrypt_unpadded hkey hiv hwhole (by omega), encryptChain_append _ n q hm, hlast]

end Sys2Proof.Machine
end

section
/-! A dropped ciphertext block (45_padding_cbc.md R132 a). From the dropped block on the ciphertext stands one block
early, so its blocks are decrypted one block early; only the first of them meets another chain value. -/

namespace Sys2Proof.Machine

/-- A ciphertext without its block `j`. -/
def withoutBlock (ct : List Byte) (j : Nat) : List Byte := ct.take (16 * j) ++ ct.drop (16 * (j + 1))

theorem length_withoutBlock {ct : List Byte} {j : Nat} (hj : 16 * (j + 1) ≤ ct.length) :
    (withoutBlock ct j).length = ct.length - 16 := by
  rw [withoutBlock, List.length_append, List.length_take, List.length_drop]
  omega

theorem blockOf_withoutBlock_before {ct : List Byte} {j k : Nat} (hj : 16 * j ≤ ct.length) (hk : k < j) :
    blockOf (withoutBlock ct j) k = blockOf ct k := by
  have hfit : 16 * k + 16 ≤ (ct.take (16 * j)).length := by
    rw [List.length_take]
    omega
  have hinside : min 16 (16 * j - 16 * k) = 16 := by omega
  rw [withoutBlock, blockOf, blockOf, List.drop_append_of_le_length (by omega),
    List.take_append_of_le_length (by rw [List.length_drop]; omega), List.drop_take, List.take_take, hinside]

theorem blockOf_withoutBlock_after {ct : List Byte} {j k : Nat} (hj : 16 * j ≤ ct.length) (hk : j ≤ k) :
    blockOf (withoutBlock ct j) k = blockOf ct (k + 1) := by
  have hlen : (ct.take (16 * j)).length = 16 * j := List.length_take_of_le hj
  have hshift : 16 * k - 16 * j + 16 * (j + 1) = 16 * (k + 1) := by omega
  rw [withoutBlock, blockOf, blockOf, List.drop_append, List.drop_of_length_le (by omega), List.nil_append, hlen,
    List.drop_drop]
  congr 2
  omega

/-- Where one ciphertext block stands in two ciphertexts, the two plaintext blocks differ as the chain values do. -/
theorem ChainDecrypts.blockOf_of_block_eq {w : Schedule} {iv ct ct' p p' : List Byte} (hp : ChainDecrypts w iv ct p)
    (hp' : ChainDecrypts w iv ct' p') {k l : Nat} (hk : 16 * k < ct'.length) (hl : 16 * l < ct.length)
    (hblock : blockOf ct' k = blockOf ct l) :
    ∃ d, IsBlock d ∧ blockOf p l = xorBlock d (chainOf iv ct l) ∧ blockOf p' k = xorBlock d (chainOf iv ct' k) := by
  obtain ⟨d, hd, hdecrypt, hpl⟩ := hp.block l hl
  obtain ⟨d', -, hdecrypt', hpk⟩ := hp'.block k hk
  rw [hblock, hdecrypt] at hdecrypt'
  cases hdecrypt'
  exact ⟨d, hd, hpl, hpk⟩

section
variable {w : Schedule} {iv ct p p' : List Byte} {j : Nat} (hp : ChainDecrypts w iv ct p)
  (hp' : ChainDecrypts w iv (withoutBlock ct j) p') (hj : 16 * (j + 1) ≤ ct.length)
include hp hp' hj

theorem ChainDecrypts.blockOf_before_dropped {k : Nat} (hk : k < j) : blockOf p' k = blockOf p k := by
  have hblock := blockOf_withoutBlock_before (ct := ct) (j := j) (by omega) hk
  obtain ⟨d, -, hpk, hpk'⟩ := hp.blockOf_of_block_eq hp' (by rw [length_withoutBlock hj]; omega) (by omega) hblock
  rw [hpk, hpk', chainOf_congr fun _ => blockOf_withoutBlock_before (by omega) (by omega)]

theorem ChainDecrypts.blockOf_at_dropped (hmod : ct.length % 16 = 0)
    (hnext : 16 * (j + 1) < ct.length) :
    blockOf p' j = xorBlock (xorBlock (blockOf p (j + 1)) (blockOf ct j)) (chainOf iv ct j) := by
  have hblock := blockOf_withoutBlock_after (ct := ct) (j := j) (by omega) le_rfl
  obtain ⟨d, hd, hpj, hpj'⟩ := hp.blockOf_of_block_eq hp' (by rw [length_withoutBlock hj]; omega) hnext hblock
  have hc : IsBlock (blockOf ct j) := isBlock_blockOf hmod (by omega)
  rw [hpj, hpj', chainOf_succ, xorBlock_cancel (hd.trans hc.symm),
    chainOf_congr fun _ => blockOf_withoutBlock_before (by omega) (by omega)]

theorem ChainDecrypts.blockOf_after_dropped {k : Nat} (hk : j < k) : blockOf p' k = blockOf p (k + 1) := by
  have hlen := length_withoutBlock hj
  by_cases hin : 16 * (k + 1) < ct.length
  · have hblock := blockOf_withoutBlock_after (ct := ct) (j := j) (by omega) hk.le
    obtain ⟨d, -, hpk, hpk'⟩ := hp.blockOf_of_block_eq hp' (by omega) hin hblock
    obtain ⟨l, rfl⟩ := Nat.exists_eq_add_one_of_ne_zero (Nat.ne_zero_of_lt hk)
    rw [hpk, hpk', chainOf_succ, chainOf_succ, blockOf_withoutBlock_after (by omega) (by omega)]
  · rw [blockOf_eq_nil (p := p) (by rw [hp.length_eq]; omega), blockOf_eq_nil (p := p') (by rw [hp'.length_eq]; omega)]

end

/-- Settles O58: the chained decryptions of the ciphertext with and without the block, compared block by block. -/
theorem droppedCiphertextBlock : Obligations.DroppedCiphertextBlock := by
  intro key iv ct j hkey hiv hmod hjlt hlong
  have hj : 16 * (j + 1) ≤ ct.length := by omega
  have hct : positiveMultipleOf16 ct.length = true := (positiveMultipleOf16_iff _).2 ⟨by omega, hmod⟩
  have hct' : positiveMultipleOf16 (withoutBlock ct j).length = true := by
    rw [length_withoutBlock hj, positiveMultipleOf16_iff]
    omega
  obtain ⟨p, hp, hresult⟩ := exists_cbcDecrypt_eq true hkey hiv hct
  obtain ⟨p', hp', hresult'⟩ := exists_cbcDecrypt_eq true hkey hiv hct'
  exact ⟨p, p', hresult, hresult', fun k hk => hp.blockOf_before_dropped hp' hj hk,
    hp.blockOf_at_dropped hp' hj hmod, fun k hk => hp.blockOf_after_dropped hp' hj hk⟩

end Sys2Proof.Machine
end
